-- ==== Sys2Proof/Word.lean ====
section
/-! DEFINITION. The words of the hardware: bits, bytes, codewords, syndromes (00_scope.md R8, 30_encoding.md R60 to R68),
the five port words that select an operation (30_encoding.md R71), and what the environment can present in one step. -/

namespace Sys2Proof

/-- A bit is 0 or 1 (R8). -/
abbrev Bit := Bool

/-- A byte bus `data[7:0]`, bit 7 most significant (R60). -/
abbrev Byte := BitVec 8

/-- A 12-bit block on a bus `code[11:0]`, position `p` at bit `12 - p` (R62). -/
abbrev Codeword := BitVec 12

/-- A syndrome `err_pos[3:0]` (R66). -/
abbrev Syndrome := BitVec 4

/-- The three outputs of one decoding, as ports carry them (R100, R127). -/
structure Decoded where
  /-- `data_out`, `dec_out_data`: the corrected byte. -/
  data   : Byte
  /-- `err_pos`, `dec_out_errpos`: the syndrome. -/
  errPos : Syndrome
  /-- `status`, `dec_out_status`: the class of the syndrome (R68). -/
  status : BitVec 2
deriving DecidableEq, Repr

/-- The five formats of port words (R71). -/
inductive Format where
  | enc8
  | dec12
  | rst
  | ecmd
  | dcmd
deriving DecidableEq, Repr

/-- The width of a format's word in bits (R71). -/
def Format.width : Format → Nat
  | .enc8 => 8
  | .dec12 => 12
  | .rst => 1
  | .ecmd => 9
  | .dcmd => 3

/-- One port word (R71): `ENC8 = data_in`, `DEC12 = code_in`, `RST = rst`,
`ECMD = (enc_in_valid, enc_in_data)`, `DCMD = (dec_in_valid, dec_in_last, dec_in_bit)`. -/
inductive PortWord where
  | enc8  (w : BitVec 8)
  | dec12 (w : BitVec 12)
  | rst   (w : BitVec 1)
  | ecmd  (w : BitVec 9)
  | dcmd  (w : BitVec 3)
deriving DecidableEq, Repr

/-- A number offered as the word of a format, before it is checked to fit (WellFormed.lean). -/
structure RawWord where
  format : Format
  value  : Nat
deriving DecidableEq, Repr

/-- What the environment presents in one step: a steady byte to `hamming_encoder` (R90), a steady block to
`hamming_syndrome_decoder` (R100), or the input ports of `hamming_codec_stream` at one rising edge of `clk` (R127, R128). There is no time within a step (log 10). -/
inductive PortInput where
  | encoder (dataIn : Byte)
  | decoder (codeIn : Codeword)
  | clock   (rst : Bool) (ecmd : BitVec 9) (dcmd : BitVec 3)
deriving DecidableEq, Repr

/-- Does this entry assert `rst` at a clock edge? -/
def PortInput.isReset : PortInput → Bool
  | .encoder _ => false
  | .decoder _ => false
  | .clock r _ _ => r

/-- Is this entry a clock cycle of the codec with `rst = 0`? -/
def PortInput.isRunning : PortInput → Bool
  | .encoder _ => false
  | .decoder _ => false
  | .clock r _ _ => !r

end Sys2Proof
end

