-- ==== Sys2Proof/Config.lean ====
section
/-! DEFINITION. What is fixed for the machine: the code's parameters (00_scope.md R5) and what the environment drives when
it has nothing to send. No parameter is left open by the spec (R5) and no value is undefined while the machine goes on
(93_implementation_defined.md section 1), so there is no free value here. -/

namespace Sys2Proof.Config

/-- `N`, codeword bits per block (R5). -/
abbrev blockBits : Nat := 12

/-- `K`, data bits per block (R5). -/
abbrev dataBits : Nat := 8

/-- The input ports when the environment offers no byte, no bit and no end mark: a clock edge with `rst = 0`,
`enc_in_valid = 0`, `dec_in_valid = 0`, `dec_in_last = 0` (R131, R134, R184).
DESIGN CHOICE (log 3): a step for which the environment's list holds no entry is such a cycle. -/
def idleInput : PortInput := .clock false 0#9 0#3

end Sys2Proof.Config
end

