-- ==== Sys2Proof/Syntax.lean ====
section
/-! DEFINITION. The ten operations of spec/opcode_table.json (30_encoding.md R72), one constructor for each row. A bit the
row marks `x` (ignored) is kept as an operand, so that a port word is never shortened (DESIGN CHOICE, log 8). -/

namespace Sys2Proof

/-- An operation of the hardware with its operand bits (R72). -/
inductive Instr where
  /-- `ENC`, `ENC8 = dddddddd`: encode byte `d` (R91). -/
  | enc (d : Byte)
  /-- `DEC`, `DEC12 = cccccccccccc`: decode block `c` (R101). -/
  | dec (c : Codeword)
  /-- `RESET`, `RST = 1` (R180). -/
  | reset
  /-- `EPUSH`, `ECMD = 1dddddddd`: accept byte `d` (R130). -/
  | epush (d : Byte)
  /-- `EIDLE`, `ECMD = 0xxxxxxxx`: nothing offered (R131); `x` is ignored. -/
  | eidle (x : BitVec 8)
  /-- `ESHIFT`, any `ECMD`: put out one bit (R132); `x` is the whole ignored word. -/
  | eshift (x : BitVec 9)
  /-- `DIDLE`, `DCMD = 00x`: no bit, no boundary (R134); `x` is ignored. -/
  | didle (x : Bit)
  /-- `DBIT`, `DCMD = 10b`: accept stream bit `b` (R135). -/
  | dbit (b : Bit)
  /-- `DBITL`, `DCMD = 11b`: accept the last bit `b` of a stream (R136). -/
  | dbitl (b : Bit)
  /-- `DEND`, `DCMD = 01x`: end the stream without a bit (R137); `x` is ignored. -/
  | dend (x : Bit)
deriving DecidableEq, Repr

/-- The format of the port word that carries an operation (R72). -/
def Instr.format : Instr → Format
  | .enc _ => .enc8
  | .dec _ => .dec12
  | .reset => .rst
  | .epush _ => .ecmd
  | .eidle _ => .ecmd
  | .eshift _ => .ecmd
  | .didle _ => .dcmd
  | .dbit _ => .dcmd
  | .dbitl _ => .dcmd
  | .dend _ => .dcmd

end Sys2Proof
end

