-- ==== Sys2Proof/WellFormed.lean ====
section
/-! DEFINITION. Well-formed words and operations. The one check the spec asks for is that a word has the width of its format
(30_encoding.md R71); beyond that there is no illegal input to any operation (R73). -/

namespace Sys2Proof

/-- The one check on a raw word: it has no bit beyond its format's width (R71). -/
def RawWord.fits (r : RawWord) : Bool := decide (r.value < 2 ^ r.format.width)

/-- Every operand of every operation is admitted by its type and no value is reserved: "There is no illegal input to any
operation" (R73 (a), (b), (d)). The match has an arm for each constructor, so that a new one cannot slip past. -/
def Instr.wf : Instr → Bool
  | .enc _ => true
  | .dec _ => true
  | .reset => true
  | .epush _ => true
  | .eidle _ => true
  | .eshift _ => true
  | .didle _ => true
  | .dbit _ => true
  | .dbitl _ => true
  | .dend _ => true

end Sys2Proof
end

