-- ==== Sys2Proof/Decode.lean ====
section
/-! DEFINITION. Which operation a port word selects (30_encoding.md R71, R72), the encoder beside it, the operations of one
step (42_codec_stream.md R138), and the view of a word by its number of bits alone that the host's table check asks for. -/

namespace Sys2Proof

/-! ### Fields of the command words (R71) -/

/-- `ECMD[8]`, `enc_in_valid`. -/
def ecmdValid (w : BitVec 9) : Bit := w.getLsbD 8

/-- `ECMD[7:0]`, `enc_in_data`. -/
def ecmdData (w : BitVec 9) : Byte := w.extractLsb' 0 8

/-- `DCMD[2]`, `dec_in_valid`. -/
def dcmdValid (w : BitVec 3) : Bit := w.getLsbD 2

/-- `DCMD[1]`, `dec_in_last`. -/
def dcmdLast (w : BitVec 3) : Bit := w.getLsbD 1

/-- `DCMD[0]`, `dec_in_bit`. -/
def dcmdBit (w : BitVec 3) : Bit := w.getLsbD 0

/-- The word `(valid, data)` of the encode channel, the valid bit on top (R71). -/
def ecmdWord (valid : Bit) (data : Byte) : BitVec 9 := BitVec.ofBool valid ++ data

/-- The word `(valid, last, bit)` of the decode channel, most significant first (R71). -/
def dcmdWord (valid last bit : Bit) : BitVec 3 := ((BitVec.ofBool valid).concat last).concat bit

/-! ### From words to operations -/

/-- Why a word selects no operation. -/
inductive DecodeReject where
  /-- The number has a bit beyond the width of its format. Raised by decodeRaw; safe: no port carries such a word. -/
  | tooWide (f : Format)
  /-- `RST = 0` selects nothing by itself: the command words of the cycle do (R72). Raised by decode; safe. -/
  | rstLow
deriving DecidableEq, Repr

/-- The encode-channel operation of an `ECMD` word (R72). `idle` says whether `enc_cnt = 0`: a busy channel performs
`ESHIFT` whatever the word is. -/
def decodeEcmd (idle : Bool) (w : BitVec 9) : Instr :=
  if idle then
    if ecmdValid w then .epush (ecmdData w) else .eidle (ecmdData w)
  else .eshift w

/-- The decode-channel operation of a `DCMD` word (R72). -/
def decodeDcmd (w : BitVec 3) : Instr :=
  match dcmdValid w, dcmdLast w with
  | false, false => .didle (dcmdBit w)
  | true, false => .dbit (dcmdBit w)
  | true, true => .dbitl (dcmdBit w)
  | false, true => .dend (dcmdBit w)

/-- The operation a port word selects, given whether the encode channel is idle (R71, R72). Total: the only word that selects
nothing is `RST = 0`. -/
def decode (idle : Bool) : PortWord → Except DecodeReject Instr
  | .enc8 w => .ok (.enc w)
  | .dec12 w => .ok (.dec w)
  | .rst w => if w = 1#1 then .ok .reset else .error .rstLow
  | .ecmd w => .ok (decodeEcmd idle w)
  | .dcmd w => .ok (decodeDcmd w)

/-- The port word of a format with a given value. -/
def Format.word (f : Format) (n : Nat) : PortWord :=
  match f with
  | .enc8 => .enc8 (BitVec.ofNat 8 n)
  | .dec12 => .dec12 (BitVec.ofNat 12 n)
  | .rst => .rst (BitVec.ofNat 1 n)
  | .ecmd => .ecmd (BitVec.ofNat 9 n)
  | .dcmd => .dcmd (BitVec.ofNat 3 n)

/-- Decoding of a raw number: refused by name where it does not fit its format. -/
def decodeRaw (idle : Bool) (r : RawWord) : Except DecodeReject Instr :=
  if r.fits then decode idle (r.format.word r.value) else .error (.tooWide r.format)

/-! ### From operations to words -/

/-- The port word of an operation, from the patterns of R72. -/
def encode : Instr → PortWord
  | .enc d => .enc8 d
  | .dec c => .dec12 c
  | .reset => .rst 1#1
  | .epush d => .ecmd (ecmdWord true d)
  | .eidle x => .ecmd (ecmdWord false x)
  | .eshift x => .ecmd x
  | .didle x => .dcmd (dcmdWord false false x)
  | .dbit b => .dcmd (dcmdWord true false b)
  | .dbitl b => .dcmd (dcmdWord true true b)
  | .dend x => .dcmd (dcmdWord false true x)

/-- The encode channel's counter condition in an operation's row (R72): `some true` for `enc_cnt = 0`, `some false` for
`enc_cnt ≠ 0`, `none` where the row has no such condition. -/
def Instr.needsIdle : Instr → Option Bool
  | .enc _ => none
  | .dec _ => none
  | .reset => none
  | .epush _ => some true
  | .eidle _ => some true
  | .eshift _ => some false
  | .didle _ => none
  | .dbit _ => none
  | .dbitl _ => none
  | .dend _ => none

/-! ### The operations of one step -/

/-- The operations that take place in one step (R138, R167): a steady input of a combinational module performs its one
operation; a clock cycle performs `RESET` alone when `rst = 1`, else one operation on each channel. -/
def selectedOps (idle : Bool) : PortInput → List Instr
  | .encoder d => [.enc d]
  | .decoder c => [.dec c]
  | .clock true _ _ => [.reset]
  | .clock false e d => [decodeEcmd idle e, decodeDcmd d]

/-- How one port word alone is presented in a step: every other command is idle. -/
def PortWord.asInput : PortWord → PortInput
  | .enc8 w => .encoder w
  | .dec12 w => .decoder w
  | .rst w => .clock (w == 1#1) 0#9 0#3
  | .ecmd w => .clock false w 0#3
  | .dcmd w => .clock false 0#9 w

/-- Does the environment send a byte or a bit with this entry? It does in a clock cycle with `rst = 0` that has a valid set
(42_codec_stream.md R128, 70_reset_and_hazards.md R184; log 15): an idle cycle, a boundary without a bit, a cycle with `rst = 1` and an
input of a combinational module send nothing. -/
def PortInput.sends : PortInput → Bool
  | .encoder _ => false
  | .decoder _ => false
  | .clock rst e d => !rst && (ecmdValid e || dcmdValid d)

/-! ### Words seen by their number of bits alone -/

/-- The format of a word of which only the number of bits and the value are given (log 13). The spec's port words carry no
tag, and formats share sizes once widths are rounded up to bytes. DESIGN CHOICE: an exact width names its format; otherwise
the narrowest word that holds the value and selects an operation is taken. -/
def tableFormat (nbits w : Nat) : Option Format :=
  match nbits with
  | 1 => some .rst
  | 3 => some .dcmd
  | 9 => some .ecmd
  | 12 => some .dec12
  | 8 => if w = 1 then some .rst else if w < 8 then some .dcmd else some .enc8
  | 16 => if w < 512 then some .ecmd else some .dec12
  | _ => none

/-- The port word of such a word, where it fits its format. -/
def tableWord (nbits w : Nat) : Option PortWord :=
  match tableFormat nbits w with
  | none => none
  | some f => if (RawWord.mk f w).fits then some (f.word w) else none

/-- The operation the decoder reads from a table word, the encode channel idle as it is after reset. -/
def decodeTableWord (nbits w : Nat) : Option Instr :=
  match tableFormat nbits w with
  | none => none
  | some f =>
    match decodeRaw true ⟨f, w⟩ with
    | .ok i => some i
    | .error _ => none

end Sys2Proof
end

