-- ==== Sys2Proof/Machine/Flags.lean ====
section
/-! DEFINITION. The class of a syndrome and its encoding on the `status` ports (30_encoding.md R67, R68,
41_syndrome_decoder.md R105). No flag is stored anywhere (10_state.md R30). -/

namespace Sys2Proof.Machine

/-- The three classes of an error position (R67). -/
inductive BlockClass where
  | clean
  | corrected
  | uncorrectable
deriving DecidableEq, Repr

/-- The class of a syndrome: 0 clean, 1 to 12 corrected, 13 to 15 uncorrectable (R67; 90_conflicts.md C3, C4). -/
def classify (e : Syndrome) : BlockClass :=
  if e.toNat = 0 then .clean else if e.toNat ≤ 12 then .corrected else .uncorrectable

/-- The two status bits of a class; `0b11` is never produced (R68). -/
def statusBits (k : BlockClass) : BitVec 2 :=
  match k with
  | .clean => 0b00#2
  | .corrected => 0b01#2
  | .uncorrectable => 0b10#2

/-- The `status` port for a syndrome (R68, R105). -/
def statusOf (e : Syndrome) : BitVec 2 := statusBits (classify e)

end Sys2Proof.Machine
end

