-- ==== Sys2Proof/Machine/BitPositionTable.lean ====
section
/-! DEFINITION. BitPositionTable: the constant that ties data bits, parity bits and checks to codeword positions
(30_encoding.md R63). It is wiring, not state: nothing reads it as data or writes it (10_state.md R22). Its
literals are spec/'s, unaudited against the repository's code (UNVERIFIED, log 11). -/

namespace Sys2Proof.Machine

/-- `ParityPositions` (R63). -/
def parityPositions : List Nat := [1, 2, 4, 8]

/-- `DataPositions`, the order significant: DataBitVector index to codeword position (R63). -/
def dataPositions : List Nat := [3, 5, 6, 7, 9, 10, 11, 12]

/-- The membership set of check `q`: the data positions it covers (R63). There is a check for 1, 2, 4 and 8 only. -/
def membership (q : Nat) : List Nat :=
  match q with
  | 1 => [3, 5, 7, 9, 11]
  | 2 => [3, 6, 7, 10, 11]
  | 4 => [5, 6, 7, 12]
  | 8 => [9, 10, 11, 12]
  | _ => []

/-- The check group of `q`: position `q` together with its membership set (00_scope.md glossary, R66). -/
def checkGroup (q : Nat) : List Nat := q :: membership q

end Sys2Proof.Machine
end

