-- ==== Sys2Proof/Machine/Operands.lean ====
section
/-! DEFINITION. Operand forms: the bits of a byte in DataBitVector order, the bits of a codeword by position, and the two ways
back (00_scope.md R9, 20_memory.md R41, R42, 30_encoding.md R60 to R62). -/

namespace Sys2Proof.Machine

/-- `d[i]` of a byte: index 0 is the most significant bit (R41, R60). -/
def dataBit (b : Byte) (i : Nat) : Bit := decide (i < 8) && b.getLsbD (7 - i)

/-- `c.pos(p)`: the bit at position `p`, on the bus `code[12 - p]` (R9, R62). There is no position 0 and none above 12. -/
def pos (c : Codeword) (p : Nat) : Bit := decide (1 ≤ p ∧ p ≤ 12) && c.getLsbD (12 - p)

/-- `c.flip(p)`: the codeword with the bit at position `p` inverted (R11); a number that names no position inverts nothing. -/
def flipPos (c : Codeword) (p : Nat) : Codeword :=
  if 1 ≤ p ∧ p ≤ 12 then c ^^^ (1#12 <<< (12 - p)) else c

/-- The codeword whose bit at position `p` is `f p`, position 1 most significant (R42, R62). -/
def blockOf (f : Nat → Bit) : Codeword :=
  ((((((((((((0#0).concat (f 1)).concat (f 2)).concat (f 3)).concat (f 4)).concat (f 5)).concat (f 6)).concat
    (f 7)).concat (f 8)).concat (f 9)).concat (f 10)).concat (f 11)).concat (f 12)

/-- The byte whose DataBitVector bit `i` is `f i`, index 0 most significant (R41). -/
def byteOf (f : Nat → Bit) : Byte :=
  ((((((((0#0).concat (f 0)).concat (f 1)).concat (f 2)).concat (f 3)).concat (f 4)).concat (f 5)).concat
    (f 6)).concat (f 7)

/-- `XOR` of the bits of a codeword at a list of positions (R8). -/
def xorAt (f : Nat → Bit) (ps : List Nat) : Bit := ps.foldl (fun a p => a ^^ f p) false

/-- The twelve bits of a codeword in stream order, position 1 first (R42, R43). -/
def codewordBits (c : Codeword) : List Bit := (List.range' 1 12).map (pos c)

/-- The eight bits of a byte in stream order, most significant first (R44). -/
def byteBits (b : Byte) : List Bit := (List.range 8).map (dataBit b)

end Sys2Proof.Machine
end

