-- ==== Sys2Proof/Machine/Code.lean ====
section
/-! DEFINITION. The two functions of the code: `ENC` (40_encoder.md R91) and `DEC` (41_syndrome_decoder.md R101 to R105).
Everything else in the model that encodes or decodes calls these. -/

namespace Sys2Proof.Machine

/-- The data bit that `ENC` places at a data position: `d[i]` at `DataPositions[i]` (R65, R91). -/
def placedBit (b : Byte) (p : Nat) : Bit := dataBit b (dataPositions.idxOf p)

/-- The bit of `ENC(b)` at position `p`: at a parity position the XOR of its membership set, else the data bit placed
there (R91; 90_conflicts.md C14). -/
def encBit (b : Byte) (p : Nat) : Bit :=
  if p ∈ parityPositions then xorAt (placedBit b) (membership p) else placedBit b p

/-- `ENC(b)` (R91). -/
def encodeByte (b : Byte) : Codeword := blockOf (encBit b)

/-- `s_q`: the XOR of the whole check group of `q` over the received block (R66, R102; 90_conflicts.md C10). -/
def checkBit (r : Codeword) (q : Nat) : Bit := xorAt (pos r) (checkGroup q)

/-- Step 1 and 2 of `DEC`: the syndrome `(s8, s4, s2, s1)`, most significant first (R66, R102). -/
def syndrome (r : Codeword) : Syndrome :=
  ((((0#0).concat (checkBit r 8)).concat (checkBit r 4)).concat (checkBit r 2)).concat (checkBit r 1)

/-- Step 3 of `DEC`: invert the bit the syndrome names, if it names one of the positions 1 to 12 (R103). -/
def corrected (r : Codeword) : Codeword :=
  if 1 ≤ (syndrome r).toNat ∧ (syndrome r).toNat ≤ 12 then flipPos r (syndrome r).toNat else r

/-- Step 4 of `DEC`: the bits at DataPositions, in order, packed most significant first (R104). -/
def extractByte (w : Codeword) : Byte := byteOf fun i => pos w (dataPositions.getD i 0)

/-- `DEC(r)`: the corrected byte and the error position (R101). -/
def decodeBlock (r : Codeword) : Byte × Syndrome := (extractByte (corrected r), syndrome r)

/-- The outputs of a decoding as the ports carry them, with the class of the syndrome (R100, R105, R133). -/
def decodedOf (r : Codeword) : Decoded :=
  { data := (decodeBlock r).1, errPos := (decodeBlock r).2, status := statusOf (decodeBlock r).2 }

end Sys2Proof.Machine
end

