-- ==== Sys2Proof/Machine/State.lean ====
section
/-! DEFINITION. The state of the machine as plain data: the four registers of `hamming_codec_stream` (10_state.md R23, and
there is no other state of the hardware, R34), whether a RESET has been performed (70_reset_and_hazards.md R182), the output
ports as the environment sees them (40_encoder.md R90, 41_syndrome_decoder.md R100, 42_codec_stream.md R127, R128), and what the environment will
drive (00_scope.md R7). The reset state is 10_state.md R35. -/

namespace Sys2Proof.Machine

/-- The state of the machine. -/
structure State where
  /-- `enc_sr[11:0]`: the bits of the current codeword not yet put out, left-aligned (R24). -/
  encSr      : Codeword
  /-- `enc_cnt`: how many bits of the current codeword are still to be put out, 0 to 12 (R25, R28 a; log 1). -/
  encCnt     : Fin 13
  /-- `dec_sr[10:0]`: the bits of the current chunk received so far, right-aligned (R26). -/
  decSr      : BitVec 11
  /-- `dec_cnt`: how many bits of the current chunk have been received, 0 to 11 (R27, R28 c; log 1). -/
  decCnt     : Fin 12
  /-- A RESET has been performed since power-up, the premise of R182 (log 2). -/
  resetDone  : Bool
  /-- `code_out` of `hamming_encoder`; none until a steady input has been presented (R90, R192; log 6). -/
  codeOut    : Option Codeword
  /-- `data_out`, `err_pos`, `status` of `hamming_syndrome_decoder`; none until a steady input has been presented (R100; log 6). -/
  decoderOut : Option Decoded
  /-- `enc_in_ready` in the latest step (R129; log 5). -/
  encInReady : Bool
  /-- The encode-input transfer of the latest step: the byte accepted (R128; log 5). -/
  encIn      : Option Byte
  /-- The encode-output transfer of the latest step: some bit exactly when `enc_out_valid = 1` (R128, R129; log 5). -/
  encOut     : Option Bit
  /-- The decode-input transfer of the latest step: the bit accepted (R128; log 5). -/
  decIn      : Option Bit
  /-- The decode-output transfer of the latest step: some exactly when `dec_out_valid = 1` (R128, R133; log 5). -/
  decOut     : Option Decoded
  /-- A stream boundary falls after the latest step (R141; log 5). -/
  boundary   : Bool
  /-- What the environment will drive, one entry a step, the next first. The model's own field (R36; log 3). -/
  inputs     : List PortInput
deriving DecidableEq, Repr

/-- The machine stops with a fault: never. "No operation of this hardware raises an exception, traps, aborts, stalls or
refuses its input" (60_exceptions.md R160), so there is no constructor and nobody raises one. Safe. -/
inductive Fault where
deriving DecidableEq, Repr

/-- Why a step has no meaning. -/
inductive Refusal where
  /-- Raised by an arm of exec whose operation has no meaning yet; none is left. Safe. -/
  | notModelled (mnemonic : String)
  /-- Raised by every clocked operation but RESET while no RESET has been performed since power-up, as the spec asks
  (70_reset_and_hazards.md R182, 93_implementation_defined.md U5 `refuse`). Safe: the model stops where the hardware
  would go on from registers that hold no defined value. -/
  | beforeFirstReset
deriving DecidableEq, Repr

/-- The machine right after reset (R35): the four registers 0, the RESET performed, the ports as a RESET cycle leaves them
(R180: nothing ready, no transfer; R141: a boundary), no input presented to the combinational modules, nothing to send. -/
def State.reset : State where
  encSr := 0x000#12
  encCnt := 0
  decSr := 0x000#11
  decCnt := 0
  resetDone := true
  codeOut := none
  decoderOut := none
  encInReady := false
  encIn := none
  encOut := none
  decIn := none
  decOut := none
  boundary := true
  inputs := []

end Sys2Proof.Machine
end

