-- ==== Sys2Proof/Machine/Ports.lean ====
section
/-! DEFINITION. The output ports of `hamming_codec_stream` as combinational functions of the registers and of a cycle's inputs
(42_codec_stream.md R129, R133), and the transfers of a cycle (R128). These are the wires; what the environment records of
them in a step is in State (log 5). The ports are the decisions of spec/ (UNVERIFIED, log 14). -/

namespace Sys2Proof.Machine

/-- `enc_cnt = 0`: the encode channel is idle (R25). -/
def State.encIdle (s : State) : Bool := s.encCnt == 0

/-- `enc_in_ready` (R129). -/
def encInReadyWire (s : State) (rst : Bool) : Bit := !rst && s.encIdle

/-- `enc_out_valid` (R129). -/
def encOutValidWire (s : State) (rst : Bool) : Bit := !rst && !s.encIdle

/-- `enc_out_bit`, driven in every cycle (R129). -/
def encOutBitWire (s : State) : Bit := s.encSr.getLsbD 11

/-- `blk[11:0] = (dec_sr[10:0], dec_in_bit)` (R133). -/
def decBlock (s : State) (b : Bit) : Codeword := s.decSr.concat b

/-- `dec_out_valid` (R133). -/
def decOutValidWire (s : State) (rst : Bool) (dcmd : BitVec 3) : Bit := !rst && dcmdValid dcmd && s.decCnt == 11

/-- `dec_out_data`, `dec_out_errpos`, `dec_out_status`, driven in every cycle (R133). -/
def decOutWires (s : State) (dcmd : BitVec 3) : Decoded := decodedOf (decBlock s (dcmdBit dcmd))

/-- The encode-input transfer of a cycle: valid and ready (R128). -/
def encInTransfer (s : State) (rst : Bool) (ecmd : BitVec 9) : Option Byte :=
  if ecmdValid ecmd && encInReadyWire s rst then some (ecmdData ecmd) else none

/-- The encode-output transfer of a cycle (R128). -/
def encOutTransfer (s : State) (rst : Bool) : Option Bit :=
  if encOutValidWire s rst then some (encOutBitWire s) else none

/-- The decode-input transfer of a cycle (R128). -/
def decInTransfer (rst : Bool) (dcmd : BitVec 3) : Option Bit :=
  if !rst && dcmdValid dcmd then some (dcmdBit dcmd) else none

/-- The decode-output transfer of a cycle (R128). -/
def decOutTransfer (s : State) (rst : Bool) (dcmd : BitVec 3) : Option Decoded :=
  if decOutValidWire s rst dcmd then some (decOutWires s dcmd) else none

end Sys2Proof.Machine
end

