-- ==== Sys2Proof/Machine/Ops.lean ====
section
/-! DEFINITION. The named operations over the registers and ports that the meanings share. There is no memory operation (the
hardware has no memory, 20_memory.md R40) and no operation that takes or returns from an exception (there is no trap entry
and no trap return, 60_exceptions.md R168, R169). -/

namespace Sys2Proof.Machine

/-! ### Counters -/

/-- `enc_cnt - 1`; never used at 0 (R132). -/
def countDown (n : Fin 13) : Fin 13 := ⟨n.val - 1, by omega⟩

/-- `dec_cnt + 1`; never used at 11, where the chunk is complete (R135). -/
def countUp (n : Fin 12) : Fin 12 := if h : n.val + 1 < 12 then ⟨n.val + 1, h⟩ else 0

/-! ### The start of a step -/

/-- What the environment drives in the next step (log 3). -/
def State.nextInput (s : State) : PortInput := s.inputs.headD Config.idleInput

/-- A step begins: the entry it consumes leaves the list, and the record of the previous step's transfers is gone, because a
transfer is offered in one cycle only (R128, R186). -/
def State.beginStep (s : State) : State :=
  { s with
    encInReady := false, encIn := none, encOut := none, decIn := none, decOut := none, boundary := false
    inputs := s.inputs.tail }

/-! ### The encode channel -/

/-- The edge of the encode channel: its two registers, and its three ports in the cycle (R126, R129). -/
def State.encEdge (s : State) (sr : Codeword) (cnt : Fin 13) (ready : Bool) (taken : Option Byte) (out : Option Bit) : State :=
  { s with encSr := sr, encCnt := cnt, encInReady := ready, encIn := taken, encOut := out }

/-- Accept a byte: load its codeword, twelve bits to put out (R130). -/
def State.acceptByte (s : State) (d : Byte) : State :=
  s.encEdge (encodeByte d) 12 true (some d) none

/-- Idle and nothing offered: ready, registers unchanged (R131). -/
def State.encodeIdle (s : State) : State :=
  s.encEdge s.encSr s.encCnt true none none

/-- Put out the top bit and shift left, zero filled (R132). A byte offered meanwhile is not accepted. -/
def State.shiftOut (s : State) : State :=
  s.encEdge ((s.encSr.setWidth 11).concat false) (countDown s.encCnt) false none (some (encOutBitWire s))

/-! ### The decode channel -/

/-- The edge of the decode channel: its two registers, and its ports in the cycle (R126, R133). -/
def State.decEdge (s : State) (sr : BitVec 11) (cnt : Fin 12) (taken : Option Bit) (out : Option Decoded) (bound : Bool) :
    State :=
  { s with decSr := sr, decCnt := cnt, decIn := taken, decOut := out, boundary := bound }

/-- Take one stream bit: the twelfth completes the block, which is decoded and put out in this cycle and not stored;
any other is shifted in (R135). -/
def State.takeBit (s : State) (b : Bit) : State :=
  if s.decCnt = 11 then
    s.decEdge 0#11 0 (some b) (some (decodedOf (decBlock s b))) false
  else
    s.decEdge ((s.decSr.setWidth 10).concat b) (countUp s.decCnt) (some b) none false

/-- No bit in this cycle: registers unchanged, nothing put out (R134). -/
def State.noBit (s : State) : State :=
  s.decEdge s.decSr s.decCnt none none false

/-- The stream boundary, applied after the cycle's bit: any short chunk is discarded without a sign (R136, R137, R141, R164,
R167). -/
def State.applyBoundary (s : State) : State :=
  s.decEdge 0#11 0 s.decIn s.decOut true

/-! ### Reset, and what needs one -/

/-- All four registers to the reset state, no transfer, a boundary (R180, R141). -/
def State.resetRegisters (s : State) : State :=
  { (s.encEdge 0x000#12 0 false none none).decEdge 0x000#11 0 none none true with resetDone := true }

/-- A clocked operation has its effect once a RESET has been performed; before that the registers hold no defined value and
the run is refused (R182, U5). -/
def State.whenReset (s t : State) : Host.Outcome State Fault Refusal :=
  if s.resetDone then .next t else .refused .beforeFirstReset

/-! ### The combinational modules -/

/-- `hamming_encoder`'s output port (R90). -/
def State.setCodeOut (s : State) (c : Codeword) : State := { s with codeOut := some c }

/-- `hamming_syndrome_decoder`'s output ports (R100). -/
def State.setDecoderOut (s : State) (o : Decoded) : State := { s with decoderOut := some o }

end Sys2Proof.Machine
end

