-- ==== Sys2Proof/Machine/DecodeChannel.lean ====
section
/-! DEFINITION. The decode channel of `hamming_codec_stream`: `DIDLE`, `DBIT`, `DBITL`, `DEND` (42_codec_stream.md R133 to
R137). -/

namespace Sys2Proof.Machine

/-- `DIDLE` (R134): no bit, no boundary; the partial chunk is kept; `x` is ignored. -/
def execDidle (_x : Bit) (s : State) : Host.Outcome State Fault Refusal :=
  s.whenReset s.noBit

/-- `DBIT` (R135): accept one stream bit; on the twelfth of a chunk put out its byte, whatever the block. -/
def execDbit (b : Bit) (s : State) : Host.Outcome State Fault Refusal :=
  s.whenReset (s.takeBit b)

/-- `DBITL` (R136): the bit is taken first, exactly as `DBIT`; then the stream boundary discards what is left. -/
def execDbitl (b : Bit) (s : State) : Host.Outcome State Fault Refusal :=
  s.whenReset (s.takeBit b).applyBoundary

/-- `DEND` (R137): the stream ends without a bit; stored bits are discarded without a sign; `x` is ignored. -/
def execDend (_x : Bit) (s : State) : Host.Outcome State Fault Refusal :=
  s.whenReset s.noBit.applyBoundary

end Sys2Proof.Machine
end

