-- ==== Sys2Proof/Machine/EncodeChannel.lean ====
section
/-! DEFINITION. The encode channel of `hamming_codec_stream`: `EPUSH`, `EIDLE`, `ESHIFT` (42_codec_stream.md R129 to R132).
R72 selects among them by `enc_cnt` as well as by the word, and decode follows it, so that step runs each only where its
row's condition holds. A meaning called where the counter selects another operation performs what R72 selects for its word
there (log 9): a byte offered to a busy channel is turned away and the channel shifts (R132), and nothing is refused (R160). -/

namespace Sys2Proof.Machine

/-- `EPUSH` (R130): with `enc_cnt = 0` the byte is accepted and its codeword loaded. With `enc_cnt ≠ 0` the offer is not
accepted and not lost, and the cycle shifts (R132 corner cases). -/
def execEpush (d : Byte) (s : State) : Host.Outcome State Fault Refusal :=
  s.whenReset (if s.encIdle then s.acceptByte d else s.shiftOut)

/-- `EIDLE` (R131): with `enc_cnt = 0` nothing changes; `x` is ignored. With `enc_cnt ≠ 0` the cycle shifts (R132). -/
def execEidle (_x : BitVec 8) (s : State) : Host.Outcome State Fault Refusal :=
  s.whenReset (if s.encIdle then s.encodeIdle else s.shiftOut)

/-- `ESHIFT` (R132): with `enc_cnt ≠ 0` one bit goes out and the register shifts; the word `x` is ignored. With `enc_cnt = 0`
there is no bit to put out and the word selects `EPUSH` or `EIDLE` (R72). -/
def execEshift (x : BitVec 9) (s : State) : Host.Outcome State Fault Refusal :=
  s.whenReset (if s.encIdle then (if ecmdValid x then s.acceptByte (ecmdData x) else s.encodeIdle) else s.shiftOut)

end Sys2Proof.Machine
end

