-- ==== Sys2Proof/Machine/Encoder.lean ====
section
/-! DEFINITION. `hamming_encoder`: the meaning of `ENC` (40_encoder.md). -/

namespace Sys2Proof.Machine

/-- `ENC` (R91): `code_out` is the codeword of the byte. Reads no state; no flag, no exception; needs no reset (R183). -/
def execEnc (d : Byte) (s : State) : Host.Outcome State Fault Refusal :=
  .next (s.setCodeOut (encodeByte d))

end Sys2Proof.Machine
end

