-- ==== Sys2Proof/Machine/Reset.lean ====
section
/-! DEFINITION. `RESET` of `hamming_codec_stream` (70_reset_and_hazards.md). -/

namespace Sys2Proof.Machine

/-- `RESET` (R180): all four registers 0, no transfer, on both channels; allowed at any time, before the first reset too. -/
def execReset (s : State) : Host.Outcome State Fault Refusal :=
  .next s.resetRegisters

end Sys2Proof.Machine
end

