-- ==== Sys2Proof/Machine/SyndromeDecoder.lean ====
section
/-! DEFINITION. `hamming_syndrome_decoder`: the meaning of `DEC` (41_syndrome_decoder.md). -/

namespace Sys2Proof.Machine

/-- `DEC` (R101): the corrected byte, the error position and its class. Reads no state; no stored flag, no exception,
whatever the block; needs no reset (R183). -/
def execDec (c : Codeword) (s : State) : Host.Outcome State Fault Refusal :=
  .next (s.setDecoderOut (decodedOf c))

end Sys2Proof.Machine
end

