-- ==== Sys2Proof/Machine/Dispatch.lean ====
section
/-! DEFINITION. The dispatch: one arm for each operation. -/

namespace Sys2Proof.Machine

def exec (i : Instr) (s : State) : Host.Outcome State Fault Refusal :=
  match i with
  | .enc d => Sys2Proof.Machine.execEnc d s
  | .dec c => Sys2Proof.Machine.execDec c s
  | .reset => Sys2Proof.Machine.execReset s
  | .epush d => Sys2Proof.Machine.execEpush d s
  | .eidle x => Sys2Proof.Machine.execEidle x s
  | .eshift x => Sys2Proof.Machine.execEshift x s
  | .didle x => Sys2Proof.Machine.execDidle x s
  | .dbit b => Sys2Proof.Machine.execDbit b s
  | .dbitl b => Sys2Proof.Machine.execDbitl b s
  | .dend x => Sys2Proof.Machine.execDend x s

end Sys2Proof.Machine
end

