-- ==== Sys2Proof/Machine/Step.lean ====
section
/-! DEFINITION. One step of the machine: what the environment presents next selects the operations (30_encoding.md R72,
42_codec_stream.md R138), and they are executed. -/

namespace Sys2Proof.Machine

/-- The operations of one step, one after the other. In a clock cycle they act on different channels and share nothing, so
their order does not matter (R126, R167; log 7). -/
def runOps : List Instr → State → Host.Outcome State Fault Refusal
  | [], s => .next s
  | i :: is, s =>
    match exec i s with
    | .next t => runOps is t
    | .fault r => .fault r
    | .refused r => .refused r

/-- One step: a clock cycle of the codec, or a steady input presented to a combinational module. -/
def step (s : State) : Host.Outcome State Fault Refusal :=
  runOps (selectedOps s.encIdle s.nextInput) s.beginStep

/-- The state with a table word presented as what the environment drives next (log 4, log 13); a number that is no port word
changes nothing. -/
def State.withFetchWord (s : State) (nbits w : Nat) : State :=
  match tableWord nbits w with
  | some p => { s with inputs := p.asInput :: s.inputs }
  | none => s

end Sys2Proof.Machine
end

