-- ==== Sys2Proof/Machine/Stream.lean ====
section
/-! DEFINITION. The function level of the stream codec, over whole sequences: `ENCALL`, `DECALLX`, `DECALL`
(42_codec_stream.md R120, R121, R125), and the packed-file format at the boundary, `PACK` and `UNPACK` (R143, R144), which
no module of the hardware performs. They are functions, not operations of the machine (log 12). -/

namespace Sys2Proof.Machine

/-- `ENCALL`: the codewords of the bytes one after the other, position 1 first, nothing between or after them (R120). -/
def encodeAll (bytes : List Byte) : List Bit := bytes.flatMap fun b => codewordBits (encodeByte b)

/-- Chunk `k` of a stream: the block whose position `p` is stream bit `12k + p - 1` (R43, R121). -/
def chunk (x : List Bit) (k : Nat) : Codeword := blockOf fun p => x.getD (Config.blockBits * k + p - 1) false

/-- `DECALLX`: each whole chunk decoded, with its error position; a trailing short chunk is dropped (R121, R125). -/
def decodeAllX (x : List Bit) : List (Byte × Syndrome) :=
  (List.range (x.length / Config.blockBits)).map fun k => decodeBlock (chunk x k)

/-- `DECALL`: the bytes of `DECALLX` (R121, R125). -/
def decodeAll (x : List Bit) : List Byte := (decodeAllX x).map Prod.fst

/-- The number of padding bits that `PACK` appends, 0 to 7 (R143). -/
def padBits (n : Nat) : Nat := (Config.dataBits - n % Config.dataBits) % Config.dataBits

/-- A stream with its padding of zero bits to a byte boundary (R143). -/
def padded (x : List Bit) : List Bit := x ++ List.replicate (padBits x.length) false

/-- `PACK`: most significant bit first, zero padding at the end (R44, R70, R143). -/
def pack (x : List Bit) : List Byte :=
  (List.range ((padded x).length / Config.dataBits)).map fun m => byteOf fun i => (padded x).getD (Config.dataBits * m + i) false

/-- `UNPACK`: the bits of each byte, most significant first (R144). -/
def unpack (bytes : List Byte) : List Bit := bytes.flatMap byteBits

end Sys2Proof.Machine
end

