-- ==== Sys2Proof/Machine/Trace.lean ====
section
/-! DEFINITION. Runs as the environment sees them: the states after each step, the transfers they record (42_codec_stream.md
R128), the decode channel's streams cut at boundaries (R141), and the loop-back wiring (R142). -/

namespace Sys2Proof.Machine

/-- The states after each of `n` steps, in order; fewer where a step has no next state. -/
def observe : Nat → State → List State
  | 0, _ => []
  | n + 1, s =>
    match step s with
    | .next t => t :: observe n t
    | .fault _ => []
    | .refused _ => []

/-- The bytes of the encode-input transfers of a run. -/
def encIns (ts : List State) : List Byte := ts.filterMap (·.encIn)

/-- The bits of the encode-output transfers of a run. -/
def encOuts (ts : List State) : List Bit := ts.filterMap (·.encOut)

/-- The bits of the decode-input transfers of a run. -/
def decIns (ts : List State) : List Bit := ts.filterMap (·.decIn)

/-- The decode-output transfers of a run. -/
def decOuts (ts : List State) : List Decoded := ts.filterMap (·.decOut)

/-- A run cut after every stream boundary (R141): the part after the last boundary comes last, and may be empty. -/
def cutStreams : List State → List (List State)
  | [] => [[]]
  | t :: ts =>
    if t.boundary then [t] :: cutStreams ts
    else
      match cutStreams ts with
      | [] => [[t]]
      | g :: gs => (t :: g) :: gs

/-- The bits of the current codeword still to be put out, in the order in which they leave (R24). -/
def pendingBits (s : State) : List Bit := (codewordBits s.encSr).take s.encCnt.val

/-- The bits of the current chunk received so far, in arrival order (R26). -/
def storedBits (s : State) : List Bit := ((List.range s.decCnt.val).map s.decSr.getLsbD).reverse

/-! ### Loop-back (R142) -/

/-- The input ports with `enc_out_valid` wired to `dec_in_valid`, `enc_out_bit` to `dec_in_bit` and `dec_in_last = 0`; the bit
that leaves as position `p` of its codeword is inverted on the way (`p = 0`: none is). -/
def loopInput (s : State) (ecmd : BitVec 9) (p : Nat) : PortInput :=
  .clock false ecmd
    (dcmdWord (encOutValidWire s false) false (encOutBitWire s ^^ (decide (p ≠ 0) && decide (s.encCnt.val + p = 13))))

/-- One cycle of the looped-back codec. -/
def loopStep (s : State) (ecmd : BitVec 9) (p : Nat) : Host.Outcome State Fault Refusal :=
  step { s with inputs := [loopInput s ecmd p] }

/-- A loop-back run: the state reached, the bytes accepted and the decoded outputs so far. -/
structure LoopRun where
  state    : State
  accepted : List Byte
  decoded  : List Decoded
deriving DecidableEq, Repr

/-- One cycle of a loop-back run; `p k` is the position inverted in codeword `k`. -/
def LoopRun.cycle (r : LoopRun) (ecmd : BitVec 9) (p : Nat → Nat) : LoopRun :=
  match loopStep r.state ecmd (p (r.accepted.length - 1)) with
  | .next t => ⟨t, r.accepted ++ t.encIn.toList, r.decoded ++ t.decOut.toList⟩
  | .fault _ => r
  | .refused _ => r

/-- `n` cycles of loop-back from the reset state with the `ECMD` words `e 0, e 1, …`. -/
def loopRun (e : Nat → BitVec 9) (p : Nat → Nat) : Nat → LoopRun
  | 0 => ⟨State.reset, [], []⟩
  | n + 1 => (loopRun e p n).cycle (e n) p

end Sys2Proof.Machine
end

