-- ==== Sys2Proof/Safety.lean ====
section
/-! DEFINITION. What counts as a safe state and a safe run, in the terms the statements use: the invariants of the registers
(10_state.md R28), the end of a run (70_reset_and_hazards.md R184), and the environment's care with `rst` (R187). -/

namespace Sys2Proof.Machine

/-- R28 (b): the low `12 - enc_cnt` bits of `enc_sr` are 0. Part (a) holds by the type of `encCnt`. -/
abbrev State.EncInv (s : State) : Prop := ∀ i < 12, i + s.encCnt.val < 12 → s.encSr.getLsbD i = false

/-- R28 (d): the bits `dec_sr[10:dec_cnt]` are 0. Part (c) holds by the type of `decCnt`. -/
abbrev State.DecInv (s : State) : Prop := ∀ i < 11, s.decCnt.val ≤ i → s.decSr.getLsbD i = false

/-- The invariants of R28. -/
abbrev State.Inv (s : State) : Prop := s.EncInv ∧ s.DecInv

/-- A run is over (R184): the environment has no further byte or bit to send, whatever other entries it drives (log 15), no bit of
a codeword is owed, and no part of a chunk is stored. With `dec_cnt = 0` the received stream is marked at its end, or its bits
number a multiple of 12 and the mark is optional; a mark still to come changes nothing. -/
abbrev State.RunOver (s : State) : Prop := (∀ p ∈ s.inputs, p.sends = false) ∧ s.encCnt = 0 ∧ s.decCnt = 0

/-- The environment does not abandon a codeword: `rst` comes only when the encode channel is idle (R187). -/
abbrev State.CarefulReset (s : State) : Prop := s.nextInput.isReset = true → s.encCnt = 0

end Sys2Proof.Machine
end

