-- ==== Sys2Proof/Certificates/Slice0/Obligations.lean ====
section
/-! DEFINITION. The statements for the provers, in the order of the spec's files. Each docstring names the rule of spec/ that
it formalises. -/

open Sys2Proof Sys2Proof.Machine

/-! ### Port words and operations (30_encoding.md) -/

/-- R72, round trip: every operation is read back from its port word, in a state of the counter that its row allows. -/
def Obligations.DecodeReadsBackEveryOperation : Prop :=
  ∀ (i : Instr) (idle : Bool), i.wf = true → (i.needsIdle = none ∨ i.needsIdle = some idle) → decode idle (encode i) = .ok i

/-- R72, exhaustive and mutually exclusive: a port word other than `RST = 0` selects one operation, whose word it is and whose
counter condition holds, and no other operation has both. -/
def Obligations.EveryPortWordSelectsOneOperation : Prop :=
  ∀ (idle : Bool) (w : PortWord),
    (w = .rst 0#1 ∧ decode idle w = .error .rstLow) ∨
    ∃ i : Instr, decode idle w = .ok i ∧ i.wf = true ∧
      ∀ j : Instr, (encode j = w ∧ (j.needsIdle = none ∨ j.needsIdle = some idle)) ↔ j = i

/-- Sample words written out from the patterns of R72, and one too wide for its format (R71). -/
def Obligations.SampleWordsDecode : Prop :=
  decode true (.enc8 0b10100101#8) = .ok (.enc 0xA5#8) ∧
  decode true (.dec12 0b111001101111#12) = .ok (.dec 0xE6F#12) ∧
  decode true (.rst 0b1#1) = .ok .reset ∧
  decode true (.ecmd 0b111111111#9) = .ok (.epush 0xFF#8) ∧
  decode true (.ecmd 0b010100101#9) = .ok (.eidle 0xA5#8) ∧
  decode false (.ecmd 0b110100101#9) = .ok (.eshift 0x1A5#9) ∧
  decode true (.dcmd 0b001#3) = .ok (.didle true) ∧
  decode true (.dcmd 0b101#3) = .ok (.dbit true) ∧
  decode true (.dcmd 0b110#3) = .ok (.dbitl false) ∧
  decode true (.dcmd 0b011#3) = .ok (.dend true) ∧
  decodeRaw true ⟨.dcmd, 8⟩ = .error (.tooWide .dcmd)

/-- A step runs the decoded operation: the entry the environment presents is consumed (`beginStep`), a steady input of a
combinational module runs `ENC` or `DEC`, `rst = 1` runs `RESET` alone, and `rst = 0` runs the encode-channel operation that
`ECMD` and the counter select and then the decode-channel operation that `DCMD` selects (R72, R138). The last clause, for an
empty list, is the model's choice (log 3). -/
def Obligations.StepRunsDecodedOperations : Prop :=
  (∀ (s : State) (d : Byte) (rest : List PortInput), s.inputs = .encoder d :: rest →
    step s = exec (.enc d) s.beginStep) ∧
  (∀ (s : State) (c : Codeword) (rest : List PortInput), s.inputs = .decoder c :: rest →
    step s = exec (.dec c) s.beginStep) ∧
  (∀ (s : State) (e : BitVec 9) (w : BitVec 3) (rest : List PortInput), s.inputs = .clock true e w :: rest →
    step s = exec .reset s.beginStep) ∧
  (∀ (s : State) (e : BitVec 9) (w : BitVec 3) (rest : List PortInput) (i j : Instr),
    s.inputs = .clock false e w :: rest →
    decode (s.encCnt == 0) (.ecmd e) = .ok i → decode (s.encCnt == 0) (.dcmd w) = .ok j →
    step s = match exec i s.beginStep with
      | .next t => exec j t
      | .fault r => .fault r
      | .refused r => .refused r) ∧
  (∀ s : State, s.inputs = [] → step s = step { s with inputs := [.clock false 0#9 0#3] })

/-- R64: check `q` covers a data position exactly when its number has the bit of weight `q`; for every position, the check
groups that contain it are the powers of two of its binary number, and their sum is the position; every position belongs to
some group, no two to the same groups, none to groups of sum 13, 14 or 15. -/
def Obligations.CheckGroupsSpellPositions : Prop :=
  (∀ p ∈ dataPositions, ∀ k : Fin 4, (p ∈ membership (2 ^ k.val) ↔ p.testBit k.val = true)) ∧
  (∀ p : Fin 13, p ≠ 0 → ∀ k : Fin 4, (p.val ∈ checkGroup (2 ^ k.val) ↔ p.val.testBit k.val = true)) ∧
  (∀ p : Fin 13, p ≠ 0 →
    (([1, 2, 4, 8].filter fun q => decide (p.val ∈ checkGroup q)).sum = p.val)) ∧
  (∀ p : Nat, p ∈ checkGroup 1 ∨ p ∈ checkGroup 2 ∨ p ∈ checkGroup 4 ∨ p ∈ checkGroup 8 ↔ 1 ≤ p ∧ p ≤ 12) ∧
  (∀ p p' : Fin 13, p ≠ 0 → p' ≠ 0 → (∀ q ∈ [1, 2, 4, 8], (p.val ∈ checkGroup q ↔ p'.val ∈ checkGroup q)) → p = p') ∧
  (∀ p : Nat, p ∈ checkGroup 4 → p ∈ checkGroup 8 → p ∉ checkGroup 1 ∧ p ∉ checkGroup 2)

/-- R65, on the buses: the codeword of a byte is `(P1, P2, d7, P4, d6, d5, d4, P8, d3, d2, d1, d0)` with the four parity
equations written out. -/
def Obligations.CodewordOnTheBus : Prop :=
  ∀ d : Byte, ∀ P1 P2 P4 P8 : Bit,
    P1 = (d.getLsbD 7 ^^ d.getLsbD 6 ^^ d.getLsbD 4 ^^ d.getLsbD 3 ^^ d.getLsbD 1) →
    P2 = (d.getLsbD 7 ^^ d.getLsbD 5 ^^ d.getLsbD 4 ^^ d.getLsbD 2 ^^ d.getLsbD 1) →
    P4 = (d.getLsbD 6 ^^ d.getLsbD 5 ^^ d.getLsbD 4 ^^ d.getLsbD 0) →
    P8 = (d.getLsbD 3 ^^ d.getLsbD 2 ^^ d.getLsbD 1 ^^ d.getLsbD 0) →
    ∀ i < 12, (encodeByte d).getLsbD i =
      [d.getLsbD 0, d.getLsbD 1, d.getLsbD 2, d.getLsbD 3, P8, d.getLsbD 4, d.getLsbD 5, d.getLsbD 6, P4, d.getLsbD 7, P2,
        P1].getD i false

/-- R66: the syndrome is `s1 + 2 s2 + 4 s4 + 8 s8`, on the bus `(s8, s4, s2, s1)`, each `s_q` the XOR over its check group and,
with the masks of R63, the parity of `code & mask`. -/
def Obligations.CheckBitsAreMaskParities : Prop :=
  ∀ r : Codeword, ∀ par : Codeword → Bit, (∀ c, par c = (List.range 12).foldl (fun a i => a ^^ c.getLsbD i) false) →
    (syndrome r).getLsbD 0 = par (r &&& 0xAAA#12) ∧ (syndrome r).getLsbD 1 = par (r &&& 0x666#12) ∧
    (syndrome r).getLsbD 2 = par (r &&& 0x1E1#12) ∧ (syndrome r).getLsbD 3 = par (r &&& 0x01F#12) ∧
    (syndrome r).getLsbD 0 = (pos r 1 ^^ pos r 3 ^^ pos r 5 ^^ pos r 7 ^^ pos r 9 ^^ pos r 11) ∧
    (syndrome r).getLsbD 1 = (pos r 2 ^^ pos r 3 ^^ pos r 6 ^^ pos r 7 ^^ pos r 10 ^^ pos r 11) ∧
    (syndrome r).getLsbD 2 = (pos r 4 ^^ pos r 5 ^^ pos r 6 ^^ pos r 7 ^^ pos r 12) ∧
    (syndrome r).getLsbD 3 = (pos r 8 ^^ pos r 9 ^^ pos r 10 ^^ pos r 11 ^^ pos r 12) ∧
    (syndrome r).toNat = ((syndrome r).getLsbD 0).toNat + 2 * ((syndrome r).getLsbD 1).toNat
      + 4 * ((syndrome r).getLsbD 2).toNat + 8 * ((syndrome r).getLsbD 3).toNat

/-- R68: the three classes, the gate form of the two status bits, and `0b11` never produced. -/
def Obligations.StatusClassesAndGates : Prop :=
  ∀ e : Syndrome,
    (e.toNat = 0 → statusOf e = 0b00#2) ∧
    (1 ≤ e.toNat → e.toNat ≤ 12 → statusOf e = 0b01#2) ∧
    (13 ≤ e.toNat → statusOf e = 0b10#2) ∧
    statusOf e ≠ 0b11#2 ∧
    (statusOf e).getLsbD 1 = (e.getLsbD 3 && e.getLsbD 2 && (e.getLsbD 1 || e.getLsbD 0)) ∧
    (statusOf e).getLsbD 0 =
      ((e.getLsbD 3 || e.getLsbD 2 || e.getLsbD 1 || e.getLsbD 0) && !(statusOf e).getLsbD 1)

/-! ### The encoder (40_encoder.md) -/

/-- R91: every `ENC8` word selects `ENC`, and it always completes; `code_out` is a codeword with the byte's bits at DataPositions, most significant first, and
each parity position the XOR of its membership set; nothing else changes. The corner cases of the rule stand as the last
clauses. -/
def Obligations.EncCompletesWithCodeword : Prop :=
  (∀ (idle : Bool) (w : BitVec 8), decode idle (.enc8 w) = .ok (.enc w)) ∧
  (∀ (d : Byte) (s : State), ∃ c : Codeword,
    exec (.enc d) s = .next { s with codeOut := some c } ∧
    (∀ i < 8, pos c ([3, 5, 6, 7, 9, 10, 11, 12].getD i 0) = d.getLsbD (7 - i)) ∧
    pos c 1 = (pos c 3 ^^ pos c 5 ^^ pos c 7 ^^ pos c 9 ^^ pos c 11) ∧
    pos c 2 = (pos c 3 ^^ pos c 6 ^^ pos c 7 ^^ pos c 10 ^^ pos c 11) ∧
    pos c 4 = (pos c 5 ^^ pos c 6 ^^ pos c 7 ^^ pos c 12) ∧
    pos c 8 = (pos c 9 ^^ pos c 10 ^^ pos c 11 ^^ pos c 12)) ∧
  encodeByte 0x00#8 = 0x000#12 ∧ encodeByte 0xFF#8 = 0xEEF#12 ∧ (∀ d : Byte, encodeByte d ≠ 0xFFF#12) ∧
  syndrome 0xFFF#12 = 12#4 ∧ flipPos (encodeByte 0xFE#8) 12 = 0xFFF#12

/-- R93: `ENC` is linear and one-to-one, its values on the eight single-bit bytes, and any two valid codewords differ in at
least three positions, some pair in exactly three. -/
def Obligations.EncIsLinearWithDistanceThree : Prop :=
  (∀ a b : Byte, encodeByte (a ^^^ b) = encodeByte a ^^^ encodeByte b) ∧
  encodeByte 0x00#8 = 0x000#12 ∧
  (∀ a b : Byte, a ≠ b → encodeByte a ≠ encodeByte b) ∧
  encodeByte 0x80#8 = 0xE00#12 ∧ encodeByte 0x40#8 = 0x980#12 ∧ encodeByte 0x20#8 = 0x540#12 ∧
  encodeByte 0x10#8 = 0xD20#12 ∧ encodeByte 0x08#8 = 0x818#12 ∧ encodeByte 0x04#8 = 0x414#12 ∧
  encodeByte 0x02#8 = 0xC12#12 ∧ encodeByte 0x01#8 = 0x111#12 ∧
  (∀ a b : Byte, a ≠ b → 3 ≤ ((codewordBits (encodeByte a ^^^ encodeByte b)).filter id).length) ∧
  ((codewordBits (encodeByte 0x00#8 ^^^ encodeByte 0x01#8)).filter id).length = 3

/-- R94: every valid codeword has syndrome 0, each of its four check groups an even number of ones. -/
def Obligations.CodewordsHaveSyndromeZero : Prop :=
  ∀ b : Byte, syndrome (encodeByte b) = 0#4 ∧
    ∀ q ∈ [1, 2, 4, 8], ((checkGroup q).filter fun p => pos (encodeByte b) p).length % 2 = 0

/-! ### The syndrome decoder (41_syndrome_decoder.md) -/

/-- R101 to R105: every `DEC12` word selects `DEC`, and it always completes, for every block: the syndrome of the received block, at most one bit inverted, the
data bits packed, the class; nothing else changes. -/
def Obligations.DecCompletesInFourSteps : Prop :=
  (∀ (idle : Bool) (w : BitVec 12), decode idle (.dec12 w) = .ok (.dec w)) ∧
  ∀ (r : Codeword) (s : State), ∃ (e : Nat) (w : Codeword) (o : Decoded),
    exec (.dec r) s = .next { s with decoderOut := some o } ∧
    e = (pos r 1 ^^ pos r 3 ^^ pos r 5 ^^ pos r 7 ^^ pos r 9 ^^ pos r 11).toNat
      + 2 * (pos r 2 ^^ pos r 3 ^^ pos r 6 ^^ pos r 7 ^^ pos r 10 ^^ pos r 11).toNat
      + 4 * (pos r 4 ^^ pos r 5 ^^ pos r 6 ^^ pos r 7 ^^ pos r 12).toNat
      + 8 * (pos r 8 ^^ pos r 9 ^^ pos r 10 ^^ pos r 11 ^^ pos r 12).toNat ∧
    (∀ p, 1 ≤ p → p ≤ 12 → pos w p = if 1 ≤ e ∧ e ≤ 12 ∧ p = e then !pos r p else pos r p) ∧
    (∀ i < 8, o.data.getLsbD (7 - i) = pos w ([3, 5, 6, 7, 9, 10, 11, 12].getD i 0)) ∧
    o.errPos.toNat = e ∧
    o.status = if e = 0 then 0b00#2 else if e ≤ 12 then 0b01#2 else 0b10#2

/-- R106: an undamaged codeword decodes to its byte with error position 0, and one with position `p` inverted, data or parity,
to its byte with error position `p`. -/
def Obligations.SingleErrorsAreCorrected : Prop :=
  ∀ b : Byte, decodeBlock (encodeByte b) = (b, 0#4) ∧
    ∀ p, 1 ≤ p → p ≤ 12 → decodeBlock (flipPos (encodeByte b) p) = (b, BitVec.ofNat 4 p)

/-- R107: two inverted positions. The syndrome is their bitwise XOR and never 0; it is 13, 14 or 15, and UNCORRECTABLE is
reported, for exactly the 15 pairs listed; otherwise it names a third position, CORRECTED is reported, and the working copy
becomes a different valid codeword at distance 3 from the one sent; the byte is always wrong. Three inverted positions can
give any syndrome, 0 too, with a wrong byte. -/
def Obligations.DoubleErrorsAreNeverRepaired : Prop :=
  (∀ (b : Byte) (p q : Nat), 1 ≤ p → p < q → q ≤ 12 →
    let r := flipPos (flipPos (encodeByte b) p) q
    let e := (syndrome r).toNat
    e = p ^^^ q ∧ e ≠ 0 ∧
    (13 ≤ e ↔ (p, q) ∈ [(1, 12), (4, 9), (5, 8), (6, 11), (7, 10), (2, 12), (4, 10), (5, 11), (6, 8), (7, 9),
      (3, 12), (4, 11), (5, 10), (6, 9), (7, 8)]) ∧
    (e ≤ 12 → e ≠ p ∧ e ≠ q ∧ ∃ b' : Byte, b' ≠ b ∧ corrected r = encodeByte b' ∧ corrected r = flipPos r e) ∧
    (decodedOf r).status = (if e ≤ 12 then 0b01#2 else 0b10#2) ∧
    (decodeBlock r).1 ≠ b) ∧
  (∀ (b : Byte) (e : Syndrome), ∃ p q u : Nat, 1 ≤ p ∧ p < q ∧ q < u ∧ u ≤ 12 ∧
    syndrome (flipPos (flipPos (flipPos (encodeByte b) p) q) u) = e) ∧
  decodeBlock (flipPos (flipPos (flipPos (encodeByte 0x00#8) 1) 2) 3) = (0x80#8, 0#4)

/-- R108: for each of the 16 syndromes and each of the 256 bytes there is exactly one block that decodes to them (so each class
has 256 blocks); class 0 is the valid codewords, class `e` from 1 to 12 the valid codewords with position `e` inverted, and
the blocks of classes 13 to 15 become valid by no single inversion, nor are they after step 3. -/
def Obligations.SyndromeClassesPartitionBlocks : Prop :=
  (∀ (b : Byte) (e : Syndrome), ∃! r : Codeword, decodeBlock r = (b, e)) ∧
  (∀ r : Codeword, (syndrome r).toNat ≤ 12 ↔
    ∃ b : Byte, r = flipPos (encodeByte b) (syndrome r).toNat) ∧
  (∀ r : Codeword, (syndrome r).toNat ≤ 12 → ∃ b : Byte, corrected r = encodeByte b) ∧
  (∀ r : Codeword, 13 ≤ (syndrome r).toNat → ∀ b : Byte, corrected r ≠ encodeByte b ∧ ∀ p : Nat, flipPos r p ≠ encodeByte b)

/-- R109: the gate form of correction and extraction together. -/
def Obligations.DecGateForm : Prop :=
  ∀ (r : Codeword) (i : Nat), i < 8 → ∀ k, k = [3, 5, 6, 7, 9, 10, 11, 12].getD i 0 →
    (decodeBlock r).1.getLsbD (7 - i) = (pos r k ^^ decide ((syndrome r).toNat = k))

/-! ### The stream functions (20_memory.md, 42_codec_stream.md) -/

/-- R120, R69: `ENCALL` of `n` bytes has `12n` bits, and bit `12k + (p - 1)` is position `p` of the codeword of byte
`k`. -/
def Obligations.EncodedStreamLayout : Prop :=
  ∀ bytes : List Byte, (encodeAll bytes).length = 12 * bytes.length ∧
    ∀ (k : Nat) (b : Byte) (p : Nat), bytes[k]? = some b → 1 ≤ p → p ≤ 12 →
      (encodeAll bytes)[12 * k + (p - 1)]? = some (pos (encodeByte b) p)

/-- R121, R123, R125: `DECALLX` gives one pair for each whole chunk, `DEC` of it, nothing for a short trailing chunk; `DECALL`
is its bytes. -/
def Obligations.DecodedStreamLayout : Prop :=
  ∀ x : List Bit, (decodeAllX x).length = x.length / 12 ∧ (decodeAll x).length = x.length / 12 ∧
    (∀ (k : Nat) (r : Codeword), k < x.length / 12 → (∀ p, 1 ≤ p → p ≤ 12 → x[12 * k + p - 1]? = some (pos r p)) →
      (decodeAllX x)[k]? = some (decodeBlock r) ∧ (decodeAll x)[k]? = some (decodeBlock r).1)

/-- R122: a stream round trip is lossless, even with at most one inverted bit in each block, whose position is reported. -/
def Obligations.StreamSurvivesOneErrorPerBlock : Prop :=
  (∀ bytes : List Byte, decodeAll (encodeAll bytes) = bytes) ∧
  ∀ blocks : List (Byte × Nat), (∀ x ∈ blocks, x.2 ≤ 12) →
    let sent := blocks.flatMap fun x => codewordBits (flipPos (encodeByte x.1) x.2)
    decodeAllX sent = blocks.map (fun x => (x.1, BitVec.ofNat 4 x.2)) ∧ decodeAll sent = blocks.map Prod.fst

/-- R123: the final incomplete chunk of a stream is dropped and `⌊len/12⌋` bytes are returned; an encoded stream that lost its
last `j` bits, 1 to 12 of them, decodes to all bytes but the last. -/
def Obligations.TruncationLosesTheLastByte : Prop :=
  (∀ x : List Bit, decodeAll x = decodeAll (x.take (12 * (x.length / 12))) ∧ (decodeAll x).length = x.length / 12) ∧
  ∀ (bytes : List Byte) (b : Byte) (j : Nat), 1 ≤ j → j ≤ 12 →
    decodeAll ((encodeAll (bytes ++ [b])).take (12 * (bytes.length + 1) - j)) = bytes

/-- R124: output `k` is a function of stream bits `12k … 12k+11` alone. -/
def Obligations.ErrorsStayInTheirBlock : Prop :=
  ∀ (x y : List Bit) (k : Nat), 12 * k + 12 ≤ x.length → 12 * k + 12 ≤ y.length →
    (∀ i < 12, x[12 * k + i]? = y[12 * k + i]?) → (decodeAllX x)[k]? = (decodeAllX y)[k]? ∧
      (decodeAll x)[k]? = (decodeAll y)[k]? ∧ ((decodeAll x)[k]?).isSome = true

/-- R143, and `UNPACK` of R144: `PACK` gives `⌈L/8⌉` bytes, byte `m` holding stream bits `8m` to `8m + 7` most significant first and zeros beyond
the stream; `UNPACK` gives the bits of each byte most significant first; so it gives the stream back, followed by the
`(-L) mod 8` zero bits of padding. -/
def Obligations.UnpackUndoesPack : Prop :=
  (∀ bytes : List Byte, (unpack bytes).length = 8 * bytes.length ∧
    ∀ (j i : Nat) (b : Byte), bytes[j]? = some b → i < 8 → (unpack bytes)[8 * j + i]? = some (b.getLsbD (7 - i))) ∧
  ∀ x : List Bit, (pack x).length = (x.length + 7) / 8 ∧
    (∀ (m i : Nat) (b : Byte), (pack x)[m]? = some b → i < 8 → b.getLsbD (7 - i) = x.getD (8 * m + i) false) ∧
    ∃ pad < 8, (x.length + pad) % 8 = 0 ∧ unpack (pack x) = x ++ List.replicate pad false

/-- R48, R144: the packed file of an encoded stream decodes to the bytes, whatever their number. -/
def Obligations.PackedFileRoundTrip : Prop :=
  ∀ bytes : List Byte, decodeAll (unpack (pack (encodeAll bytes))) = bytes

/-- R48: byte padding of an arbitrary stream completes a spurious block exactly when the bits left over and the padding together
reach twelve. -/
def Obligations.PaddingCanCompleteASpuriousBlock : Prop :=
  ∀ (x : List Bit) (pad : Nat), pad < 8 → (x.length + pad) % 8 = 0 →
    (decodeAll (unpack (pack x))).length = (decodeAll x).length + if 12 ≤ x.length % 12 + pad then 1 else 0

/-! ### The encode channel (42_codec_stream.md R129 to R132) -/

/-- R130: `ECMD = 1dddddddd` at an idle encode channel: it accepts any byte, loads its codeword and owes twelve bits; the byte is the only transfer on the
channel and nothing else changes. -/
def Obligations.EpushLoadsTheCodeword : Prop :=
  ∀ (d : Byte) (s : State), s.resetDone = true → s.encCnt = 0 →
    decode (s.encCnt == 0) (.ecmd (1#1 ++ d)) = .ok (.epush d) ∧ exec (.epush d) s = .next { s with
      encSr := encodeByte d, encCnt := 12, encInReady := true, encIn := some d, encOut := none }

/-- R131: `ECMD = 0xxxxxxxx`: an idle channel with nothing offered stays as it is and shows ready; the ignored bits have no effect. -/
def Obligations.EidleChangesNoRegister : Prop :=
  ∀ (x : BitVec 8) (s : State), s.resetDone = true → s.encCnt = 0 →
    decode (s.encCnt == 0) (.ecmd (0#1 ++ x)) = .ok (.eidle x) ∧ exec (.eidle x) s = .next { s with encInReady := true, encIn := none, encOut := none }

/-- R132: a busy channel puts out `enc_sr[11]`, shifts left with a zero, counts down, and accepts nothing, whatever the word. -/
def Obligations.EshiftPutsOutOneBit : Prop :=
  ∀ (x : BitVec 9) (s : State), s.resetDone = true → s.encCnt ≠ 0 →
    decode (s.encCnt == 0) (.ecmd x) = .ok (.eshift x) ∧ ∃ c : Fin 13, c.val + 1 = s.encCnt.val ∧
      exec (.eshift x) s = .next { s with
        encSr := s.encSr <<< 1, encCnt := c, encInReady := false, encIn := none, encOut := some (s.encSr.getLsbD 11) }

/-- A meaning of the encode channel called where the counter selects another operation performs what R72 selects for its word:
a busy channel shifts whatever is offered, an idle one accepts or idles as the valid bit says. The model's choice, log 9. -/
def Obligations.EncodeWordsFollowTheCounter : Prop :=
  (∀ (d : Byte) (x : BitVec 8) (w : BitVec 9) (s : State), s.encCnt ≠ 0 →
    exec (.epush d) s = exec (.eshift w) s ∧ exec (.eidle x) s = exec (.eshift w) s) ∧
  (∀ (d : Byte) (s : State), s.encCnt = 0 →
    exec (.eshift (1#1 ++ d)) s = exec (.epush d) s ∧ exec (.eshift (0#1 ++ d)) s = exec (.eidle d) s)

/-! ### The decode channel (42_codec_stream.md R133 to R137) -/

/-- R134: `DCMD = 00x`, no bit, no boundary: the partial chunk is kept and nothing is put out; the ignored bit has no effect. -/
def Obligations.DidleKeepsTheChunk : Prop :=
  ∀ (x : Bit) (s : State), s.resetDone = true →
    decode (s.encCnt == 0) (.dcmd (0b00#2 ++ BitVec.ofBool x)) = .ok (.didle x) ∧ exec (.didle x) s = .next { s with decIn := none, decOut := none, boundary := false }

/-- R135: `DCMD = 10b`: a bit is always accepted. The twelfth completes `(dec_sr, b)`, whose byte, syndrome and class are put out in this cycle,
and the channel starts afresh; any other is shifted in from the right and counted. -/
def Obligations.DbitTakesOneBit : Prop :=
  ∀ (b : Bit) (s : State), s.resetDone = true →
    decode (s.encCnt == 0) (.dcmd (0b10#2 ++ BitVec.ofBool b)) = .ok (.dbit b) ∧
    (s.decCnt = 11 → ∃ blk : Codeword, blk.toNat = 2 * s.decSr.toNat + b.toNat ∧
      exec (.dbit b) s = .next { s with
        decSr := 0#11, decCnt := 0, decIn := some b, boundary := false
        decOut := some ⟨(decodeBlock blk).1, (decodeBlock blk).2, statusOf (decodeBlock blk).2⟩ }) ∧
    (s.decCnt ≠ 11 → ∃ (sr : BitVec 11) (c : Fin 12),
      sr.toNat = (2 * s.decSr.toNat + b.toNat) % 2048 ∧ c.val = s.decCnt.val + 1 ∧
      exec (.dbit b) s = .next { s with
        decSr := sr, decCnt := c, decIn := some b, decOut := none, boundary := false })

/-- R136: `DCMD = 11b`: the last bit of a stream is taken first, so that a twelfth bit still puts out its byte; then the boundary empties the
chunk, dropping a short one without a sign. -/
def Obligations.DbitlTakesTheBitThenCuts : Prop :=
  ∀ (b : Bit) (s : State), s.resetDone = true →
    decode (s.encCnt == 0) (.dcmd (0b11#2 ++ BitVec.ofBool b)) = .ok (.dbitl b) ∧
    (s.decCnt = 11 → ∃ blk : Codeword, blk.toNat = 2 * s.decSr.toNat + b.toNat ∧
      exec (.dbitl b) s = .next { s with
        decSr := 0#11, decCnt := 0, decIn := some b, boundary := true
        decOut := some ⟨(decodeBlock blk).1, (decodeBlock blk).2, statusOf (decodeBlock blk).2⟩ }) ∧
    (s.decCnt ≠ 11 →
      exec (.dbitl b) s = .next { s with
        decSr := 0#11, decCnt := 0, decIn := some b, decOut := none, boundary := true })

/-- R137: `DCMD = 01x`: a stream ends without a bit: the stored bits are discarded, nothing is put out, the ignored bit has no effect. -/
def Obligations.DendDiscardsTheChunk : Prop :=
  ∀ (x : Bit) (s : State), s.resetDone = true →
    decode (s.encCnt == 0) (.dcmd (0b01#2 ++ BitVec.ofBool x)) = .ok (.dend x) ∧ exec (.dend x) s = .next { s with
      decSr := 0#11, decCnt := 0, decIn := none, decOut := none, boundary := true }

/-! ### The clocked step (42_codec_stream.md R126 to R142, 60_exceptions.md) -/

/-- R128, R129, R133: in every clock cycle the transfers recorded are those of the port equations, functions of the registers
before the edge and of the cycle's inputs; none of them with `rst = 1`. -/
def Obligations.CycleTransfersFollowThePortEquations : Prop :=
  ∀ (s : State) (rst : Bool) (e : BitVec 9) (w : BitVec 3) (rest : List PortInput),
    s.resetDone = true → s.inputs = .clock rst e w :: rest →
    ∃ t, step s = .next t ∧
      t.encInReady = (!rst && s.encCnt == 0) ∧
      t.encIn = (if e.getLsbD 8 && (!rst && s.encCnt == 0) then some (e.extractLsb' 0 8) else none) ∧
      t.encOut = (if !rst && !(s.encCnt == 0) then some (s.encSr.getLsbD 11) else none) ∧
      t.decIn = (if !rst && w.getLsbD 2 then some (w.getLsbD 0) else none) ∧
      t.decOut = (if !rst && w.getLsbD 2 && s.decCnt == 11 then some (decodedOf (s.decSr ++ BitVec.ofBool (w.getLsbD 0))) else none) ∧
      t.boundary = (rst || w.getLsbD 1)

/-- R138 and section 7 of 42_codec_stream.md: the registers after a clock cycle are those of the collated step, both channels
from the registers before the edge. -/
def Obligations.ClockedStepMatchesTheCollation : Prop :=
  ∀ (s : State) (rst : Bool) (e : BitVec 9) (w : BitVec 3) (rest : List PortInput),
    s.resetDone = true → s.inputs = .clock rst e w :: rest →
    ∃ t, step s = .next t ∧
      (t.encSr, t.encCnt.val) =
        (if rst then (0#12, 0)
         else if s.encCnt.val = 0 then (if e.getLsbD 8 then (encodeByte (e.extractLsb' 0 8), 12) else (s.encSr, s.encCnt.val))
         else (s.encSr.extractLsb' 0 11 ++ 0#1, s.encCnt.val - 1)) ∧
      (t.decSr, t.decCnt.val) =
        (if rst then (0#11, 0)
         else if w.getLsbD 1 then (0#11, 0)
         else if w.getLsbD 2 then
           (if s.decCnt.val = 11 then (0#11, 0)
            else (s.decSr.extractLsb' 0 10 ++ BitVec.ofBool (w.getLsbD 0), s.decCnt.val + 1))
         else (s.decSr, s.decCnt.val)) ∧
      t.inputs = rest ∧ t.codeOut = s.codeOut ∧ t.decoderOut = s.decoderOut ∧ t.resetDone = true

/-- R126: an encode-channel operation reads and writes nothing of the decode channel, and a decode-channel operation nothing of the
encode channel; so the two of a cycle can be executed in either order with the same result (R7). -/
def Obligations.ChannelsDoNotInteract : Prop :=
  (∀ (i : Instr) (s t : State), i.format = .ecmd → exec i s = .next t →
    t.decSr = s.decSr ∧ t.decCnt = s.decCnt ∧ t.decIn = s.decIn ∧ t.decOut = s.decOut ∧ t.boundary = s.boundary ∧
    ∀ s' t' : State, exec i s' = .next t' → s'.encSr = s.encSr → s'.encCnt = s.encCnt →
      t'.encSr = t.encSr ∧ t'.encCnt = t.encCnt ∧ t'.encInReady = t.encInReady ∧ t'.encIn = t.encIn ∧ t'.encOut = t.encOut) ∧
  (∀ (j : Instr) (s t : State), j.format = .dcmd → exec j s = .next t →
    t.encSr = s.encSr ∧ t.encCnt = s.encCnt ∧ t.encInReady = s.encInReady ∧ t.encIn = s.encIn ∧ t.encOut = s.encOut ∧
    ∀ s' t' : State, exec j s' = .next t' → s'.decSr = s.decSr → s'.decCnt = s.decCnt →
      t'.decSr = t.decSr ∧ t'.decCnt = t.decCnt ∧ t'.decIn = t.decIn ∧ t'.decOut = t.decOut ∧ t'.boundary = t.boundary) ∧
  (∀ (i j : Instr) (s : State), i.format = .ecmd → j.format = .dcmd → runOps [i, j] s = runOps [j, i] s)

/-- R139: from an idle encode channel, while `rst = 0`, the bits put out followed by those still owed are the encoding of the bytes
accepted; so they are a prefix of it at every cycle, and all of it whenever the channel is idle. After the transfer of a byte
exactly its twelve codeword bits go out, in position order, in the twelve cycles that follow, and the channel is idle again
with `enc_sr = 0`. -/
def Obligations.EncodeChannelRefinesEncodeAll : Prop :=
  (∀ (n : Nat) (s : State), s.resetDone = true → s.encCnt = 0 → (∀ p ∈ s.inputs, p.isReset = false) →
    let ts := observe n s
    let t := ts.getLastD s
    ts.length = n ∧
    encOuts ts ++ pendingBits t = encodeAll (encIns ts) ∧
    encOuts ts <+: encodeAll (encIns ts) ∧
    (t.encCnt = 0 → encOuts ts = encodeAll (encIns ts))) ∧
  (∀ (s : State) (d : Byte) (w : BitVec 3) (rest : List PortInput), s.resetDone = true → s.encCnt = 0 →
    s.inputs = .clock false (1#1 ++ d) w :: rest → (∀ p ∈ rest, p.isRunning = true) →
    (observe 13 s).map (·.encOut) = none :: (codewordBits (encodeByte d)).map some ∧
    (observe 13 s).map (·.encIn) = some d :: List.replicate 12 none ∧
    (observe 13 s).map (·.encCnt.val) = [12, 11, 10, 9, 8, 7, 6, 5, 4, 3, 2, 1, 0] ∧
    ((observe 13 s).getLastD s).encSr = 0#12)

/-- R140, R141: from an empty chunk, cut at stream boundaries, each stream's outputs are `DECALLX` of its bits; and at every cycle
the count is the number of the current stream's bits modulo 12 and the stored bits are its last ones, in arrival order. The
bytes are `DECALL` of the bits, one for every twelve, and an output appears exactly in the cycle that takes a twelfth bit. -/
def Obligations.DecodeChannelRefinesDecodeAllX : Prop :=
  ∀ (n : Nat) (s : State), s.resetDone = true → s.decCnt = 0 →
    let ts := observe n s
    let t := ts.getLastD s
    let x := decIns ((cutStreams ts).getLastD [])
    ts.length = n ∧
    (∀ g ∈ cutStreams ts,
      (decOuts g).map (fun o => (o.data, o.errPos)) = decodeAllX (decIns g) ∧
      (decOuts g).map (·.data) = decodeAll (decIns g) ∧ (decOuts g).length = (decIns g).length / 12 ∧
      ∀ (a b : List State) (u : State), g = a ++ u :: b →
        (u.decOut.isSome = true ↔ u.decIn.isSome = true ∧ (decIns (a ++ [u])).length % 12 = 0)) ∧
    t.decCnt.val = x.length % 12 ∧ storedBits t = x.drop (x.length - t.decCnt.val)

/-- R142: with the outputs of the encode channel wired to the inputs of the decode channel, from reset, whatever is offered and
whichever single bit of each codeword is inverted on the way (`p k = 0`: none), every byte accepted comes out in order with the
position inverted and its status, all of them whenever the encode channel is idle; each in the cycle of the twelfth `ESHIFT` of
its codeword, 12 cycles after its `EPUSH` cycle. -/
def Obligations.LoopBackReturnsEveryByte : Prop :=
  ∀ (e : Nat → BitVec 9) (p : Nat → Nat), (∀ k, p k ≤ 12) → ∀ n : Nat,
    let r := loopRun e p n
    r.decoded = (r.accepted.take r.decoded.length).mapIdx (fun k b =>
      (⟨b, BitVec.ofNat 4 (p k), if p k = 0 then 0b00#2 else 0b01#2⟩ : Decoded)) ∧
    r.accepted.length = r.decoded.length + (if r.state.encCnt = 0 then 0 else 1) ∧
    (r.state.encCnt = 0 → r.state.decCnt = 0) ∧
    (r.state.encCnt ≠ 0 → r.state.decCnt.val + r.state.encCnt.val = 12) ∧
    (r.state.encCnt = 0 → (e n).getLsbD 8 = true →
      (loopRun e p (n + 12)).decoded.length = r.decoded.length ∧
      (loopRun e p (n + 13)).decoded.length = r.decoded.length + 1 ∧ (loopRun e p (n + 13)).state.encCnt = 0)

/-- R160: once a RESET has been performed no operation and no step ever stops: each answers a next state, for every input. -/
def Obligations.NothingIsEverRefusedAfterReset : Prop :=
  (∀ (i : Instr) (s : State), s.resetDone = true → ∃ t, exec i s = .next t ∧ t.resetDone = true) ∧
  (∀ s : State, s.resetDone = true → ∃ t, step s = .next t ∧ t.resetDone = true)

/-- R168: which operations take place and both counters after a clock cycle depend on the counters and the control bits only, never
on the data, the registers' bits or a syndrome. -/
def Obligations.ControlNeverDependsOnData : Prop :=
  ∀ (s s' : State) (rst : Bool) (e e' : BitVec 9) (w w' : BitVec 3) (rest rest' : List PortInput) (t t' : State),
    s.inputs = .clock rst e w :: rest → s'.inputs = .clock rst e' w' :: rest' →
    e.getLsbD 8 = e'.getLsbD 8 → w.getLsbD 2 = w'.getLsbD 2 → w.getLsbD 1 = w'.getLsbD 1 →
    s.encCnt = s'.encCnt → s.decCnt = s'.decCnt → step s = .next t → step s' = .next t' →
    t.encCnt = t'.encCnt ∧ t.decCnt = t'.decCnt ∧ t.encOut.isSome = t'.encOut.isSome ∧ t.decOut.isSome = t'.decOut.isSome

/-! ### Reset, invariants, end of a run (10_state.md, 70_reset_and_hazards.md) -/

/-- R35: the reset state of the four registers. -/
def Obligations.ResetStateRegisters : Prop :=
  State.reset.encSr = 0x000#12 ∧ State.reset.encCnt = 0 ∧ State.reset.decSr = 0x000#11 ∧ State.reset.decCnt = 0

/-- R180: `RST = 1` selects `RESET`; in a cycle with `rst = 1`, whatever else is on the ports and whatever the state, all four registers become 0, no transfer
of any kind occurs, and a stream boundary falls (R141); nothing else changes. `RESET` alone does the same. -/
def Obligations.ResetClearsBothChannels : Prop :=
  (∀ idle : Bool, decode idle (.rst 1#1) = .ok .reset) ∧
  (∀ s : State, exec .reset s = .next { s with
    encSr := 0#12, encCnt := 0, decSr := 0#11, decCnt := 0, resetDone := true
    encInReady := false, encIn := none, encOut := none, decIn := none, decOut := none, boundary := true }) ∧
  (∀ (s : State) (e : BitVec 9) (w : BitVec 3) (rest : List PortInput), s.inputs = .clock true e w :: rest →
    step s = .next { s with
      encSr := 0#12, encCnt := 0, decSr := 0#11, decCnt := 0, resetDone := true
      encInReady := false, encIn := none, encOut := none, decIn := none, decOut := none, boundary := true
      inputs := rest })

/-- R182, R183: before the first RESET every clocked operation but `RESET` is refused by name, and `RESET` and the two combinational
operations complete. -/
def Obligations.NothingClockedRunsBeforeTheFirstReset : Prop :=
  ∀ s : State, s.resetDone = false →
    (∀ i : Instr, i.format = .ecmd ∨ i.format = .dcmd → exec i s = .refused .beforeFirstReset) ∧
    (∃ t, exec .reset s = .next t ∧ t.resetDone = true) ∧
    (∀ d : Byte, ∃ t, exec (.enc d) s = .next t) ∧ (∀ c : Codeword, ∃ t, exec (.dec c) s = .next t)

/-- R28: every step keeps the invariants of the registers, from every state that has them. -/
def Obligations.StepKeepsTheRegisterInvariants : Prop :=
  ∀ s t : State, s.Inv → step s = .next t → t.Inv

/-- R28, R35: the reset state has the invariants. -/
def Obligations.ResetHasTheRegisterInvariants : Prop := State.reset.Inv

/-- R184 with R28: when a run is over, nothing further being sent whatever other entries the environment drives, the four registers
are those of the reset state; and every step keeps the run over, with no transfer. Where the list of entries is empty, the
step that follows is the idle cycle of log 3, the model's choice; what counts as sending is log 15. -/
def Obligations.RunOverIsTheResetState : Prop :=
  ∀ s : State, s.Inv → s.RunOver → s.resetDone = true →
    s.encSr = State.reset.encSr ∧ s.encCnt = State.reset.encCnt ∧ s.decSr = State.reset.decSr ∧ s.decCnt = State.reset.decCnt ∧
    ∃ t, step s = .next t ∧ t.Inv ∧ t.RunOver ∧ t.resetDone = true ∧
      t.encIn = none ∧ t.encOut = none ∧ t.decIn = none ∧ t.decOut = none

/-- R193, R185: from any state the encode channel is idle after as many cycles as it owes bits, at most 12, whatever is offered. -/
def Obligations.EncodeChannelAlwaysBecomesIdle : Prop :=
  ∀ s : State, s.resetDone = true → (∀ p ∈ s.inputs, p.isRunning = true) →
    ∃ n ≤ 12, ∃ t, Host.Core.run Sys2Proof.core n s = .next t ∧ t.encCnt = 0 ∧ t.resetDone = true

/-- R187: an environment that asserts `rst` only when the encode channel is idle never leaves an incomplete codeword in the encoded
stream: across such resets too, what was put out and what is owed is the encoding of the bytes accepted. -/
def Obligations.CarefulResetsAbandonNoCodeword : Prop :=
  ∀ (n : Nat) (s : State), s.resetDone = true → s.encCnt = 0 →
    let ts := observe n s
    let t := ts.getLastD s
    (∀ u ∈ s :: ts.dropLast, u.CarefulReset) → encOuts ts ++ pendingBits t = encodeAll (encIns ts)

/-- R190: twelve or more zero bits after the last whole block decode as extra bytes `0x00`, one for every twelve, all clean. -/
def Obligations.LongZeroPaddingDecodesAsZeroBytes : Prop :=
  ∀ (x : List Bit) (k j : Nat), x.length % 12 = 0 → j < 12 →
    decodeAllX (x ++ List.replicate (12 * k + j) false) = decodeAllX x ++ List.replicate k (0x00#8, 0#4)
end

