-- ==== Sys2Proof/Laws/Code.lean ====
section
/-! SUPPORT. What the operand forms and the code's two functions do, bit by bit. -/

namespace Sys2Proof.Machine

/-! ### Operand forms -/

/-- The bit of `blockOf f` on the bus is `f` at the position it stands for. -/
theorem getLsbD_blockOf (f : Nat → Bit) {j : Nat} (h : j < 12) : (blockOf f).getLsbD j = f (12 - j) := by
  have hj : j = 0 ∨ j = 1 ∨ j = 2 ∨ j = 3 ∨ j = 4 ∨ j = 5 ∨ j = 6 ∨ j = 7 ∨ j = 8 ∨ j = 9 ∨ j = 10 ∨ j = 11 := by omega
  rcases hj with rfl | rfl | rfl | rfl | rfl | rfl | rfl | rfl | rfl | rfl | rfl | rfl <;>
    simp [blockOf]

/-- The block built from `f` has `f p` at position `p`. -/
theorem pos_blockOf (f : Nat → Bit) {p : Nat} (h : 1 ≤ p ∧ p ≤ 12) : pos (blockOf f) p = f p := by
  simp only [pos, h, and_self, decide_true, Bool.true_and, getLsbD_blockOf f (show 12 - p < 12 by omega)]
  congr 1; omega

/-- Two blocks that agree at every position are equal. -/
theorem eq_of_pos {c c' : Codeword} (h : ∀ p, 1 ≤ p → p ≤ 12 → pos c p = pos c' p) : c = c' := by
  apply BitVec.eq_of_getLsbD_eq
  intro i hi
  have := h (12 - i) (by omega) (by omega)
  simpa [pos, show 1 ≤ 12 - i by omega, show 12 - (12 - i) = i by omega] using this

/-- Rebuilding a block from its own positions gives it back. -/
theorem blockOf_pos (c : Codeword) : blockOf (pos c) = c :=
  eq_of_pos fun _ h1 h2 => pos_blockOf (pos c) ⟨h1, h2⟩

/-- A block is determined by the function on positions 1 to 12. -/
theorem blockOf_congr {f g : Nat → Bit} (h : ∀ p, 1 ≤ p → p ≤ 12 → f p = g p) : blockOf f = blockOf g :=
  eq_of_pos fun p h1 h2 => by rw [pos_blockOf f ⟨h1, h2⟩, pos_blockOf g ⟨h1, h2⟩, h p h1 h2]

/-- Inverting position `p` changes position `p` and no other. -/
theorem pos_flipPos (c : Codeword) {p q : Nat} (hq : 1 ≤ q ∧ q ≤ 12) :
    pos (flipPos c p) q = (pos c q ^^ decide (q = p)) := by
  unfold flipPos
  split
  · next h =>
    have e1 : decide (q = p) = decide (12 - q = 12 - p) := by
      by_cases hqp : q = p
      · simp [hqp]
      · have : ¬ (12 - q = 12 - p) := by omega
        simp [hqp, this]
    have hlt : 12 - q < 12 := by omega
    simp only [pos, hq, and_self, decide_true, Bool.true_and, BitVec.getLsbD_xor, e1]
    congr 1
    rw [← BitVec.twoPow_eq, BitVec.getLsbD_twoPow]
    have : 12 - p < 12 := by omega
    simp only [this, decide_true, Bool.true_and]
    rw [eq_comm]
    exact decide_eq_decide.mpr eq_comm
  · next h =>
    have : q ≠ p := by rintro rfl; exact h hq
    simp [this]

/-- DataBitVector bit `i` of the byte built from `f` is `f i`. -/
theorem dataBit_byteOf (f : Nat → Bit) {i : Nat} (h : i < 8) : dataBit (byteOf f) i = f i := by
  have hi : i = 0 ∨ i = 1 ∨ i = 2 ∨ i = 3 ∨ i = 4 ∨ i = 5 ∨ i = 6 ∨ i = 7 := by omega
  rcases hi with rfl | rfl | rfl | rfl | rfl | rfl | rfl | rfl <;>
    simp [dataBit, byteOf]

/-- Two bytes with the same data bits are equal. -/
theorem eq_of_dataBit {b b' : Byte} (h : ∀ i < 8, dataBit b i = dataBit b' i) : b = b' := by
  apply BitVec.eq_of_getLsbD_eq
  intro i hi
  have := h (7 - i) (by omega)
  simpa [dataBit, show 7 - i < 8 by omega, show 7 - (7 - i) = i by omega] using this

/-- Rebuilding a byte from its own data bits gives it back. -/
theorem byteOf_dataBit (b : Byte) : byteOf (dataBit b) = b :=
  eq_of_dataBit fun _ h => dataBit_byteOf (dataBit b) h

/-- A byte is determined by the function on indices 0 to 7. -/
theorem byteOf_congr {f g : Nat → Bit} (h : ∀ i < 8, f i = g i) : byteOf f = byteOf g :=
  eq_of_dataBit fun i hi => by rw [dataBit_byteOf f hi, dataBit_byteOf g hi, h i hi]

@[simp] theorem codewordBits_length (c : Codeword) : (codewordBits c).length = 12 := by simp [codewordBits]

@[simp] theorem byteBits_length (b : Byte) : (byteBits b).length = 8 := by simp [byteBits]

/-- Element `j` of a codeword in stream order is position `j + 1`. -/
theorem codewordBits_getElem? (c : Codeword) {j : Nat} (h : j < 12) : (codewordBits c)[j]? = some (pos c (j + 1)) := by
  simp [codewordBits, h, Nat.add_comm]

/-! ### ENC -/

/-- `ENC` by position (R91). -/
theorem pos_encodeByte (b : Byte) {p : Nat} (h : 1 ≤ p ∧ p ≤ 12) : pos (encodeByte b) p = encBit b p :=
  pos_blockOf (encBit b) h

/-- `ENC` puts data bit `i` at data position `i` (R65). -/
theorem pos_encodeByte_data (b : Byte) :
    pos (encodeByte b) 3 = dataBit b 0 ∧ pos (encodeByte b) 5 = dataBit b 1 ∧ pos (encodeByte b) 6 = dataBit b 2 ∧
    pos (encodeByte b) 7 = dataBit b 3 ∧ pos (encodeByte b) 9 = dataBit b 4 ∧ pos (encodeByte b) 10 = dataBit b 5 ∧
    pos (encodeByte b) 11 = dataBit b 6 ∧ pos (encodeByte b) 12 = dataBit b 7 := by
  refine ⟨?_, ?_, ?_, ?_, ?_, ?_, ?_, ?_⟩ <;> rw [pos_encodeByte b (by omega)] <;> rfl

/-- `ENC`'s parity positions are the XORs of their membership sets (R65). -/
theorem pos_encodeByte_parity (b : Byte) :
    pos (encodeByte b) 1 = (dataBit b 0 ^^ dataBit b 1 ^^ dataBit b 3 ^^ dataBit b 4 ^^ dataBit b 6) ∧
    pos (encodeByte b) 2 = (dataBit b 0 ^^ dataBit b 2 ^^ dataBit b 3 ^^ dataBit b 5 ^^ dataBit b 6) ∧
    pos (encodeByte b) 4 = (dataBit b 1 ^^ dataBit b 2 ^^ dataBit b 3 ^^ dataBit b 7) ∧
    pos (encodeByte b) 8 = (dataBit b 4 ^^ dataBit b 5 ^^ dataBit b 6 ^^ dataBit b 7) := by
  refine ⟨?_, ?_, ?_, ?_⟩ <;> rw [pos_encodeByte b (by omega)] <;>
    simp [encBit, parityPositions, membership, xorAt, placedBit, dataPositions, List.idxOf_cons]

/-! ### DEC -/

/-- The four check bits written out (R66). -/
theorem checkBit_eq (r : Codeword) :
    checkBit r 1 = (pos r 1 ^^ pos r 3 ^^ pos r 5 ^^ pos r 7 ^^ pos r 9 ^^ pos r 11) ∧
    checkBit r 2 = (pos r 2 ^^ pos r 3 ^^ pos r 6 ^^ pos r 7 ^^ pos r 10 ^^ pos r 11) ∧
    checkBit r 4 = (pos r 4 ^^ pos r 5 ^^ pos r 6 ^^ pos r 7 ^^ pos r 12) ∧
    checkBit r 8 = (pos r 8 ^^ pos r 9 ^^ pos r 10 ^^ pos r 11 ^^ pos r 12) := by
  refine ⟨?_, ?_, ?_, ?_⟩ <;> simp [checkBit, checkGroup, membership, xorAt]

/-- The syndrome as a number (R66). -/
theorem syndrome_toNat (r : Codeword) :
    (syndrome r).toNat =
      (checkBit r 1).toNat + 2 * (checkBit r 2).toNat + 4 * (checkBit r 4).toNat + 8 * (checkBit r 8).toNat := by
  unfold syndrome
  cases checkBit r 1 <;> cases checkBit r 2 <;> cases checkBit r 4 <;> cases checkBit r 8 <;> rfl

/-- Inverting a position changes a check bit exactly when its group holds the position. -/
theorem checkBit_flipPos (r : Codeword) {p : Nat} (q : Nat) (hq : q ∈ parityPositions) :
    checkBit (flipPos r p) q = (checkBit r q ^^ decide (p ∈ checkGroup q)) := by
  have hp : ∀ k, 1 ≤ k ∧ k ≤ 12 → pos (flipPos r p) k = (pos r k ^^ decide (k = p)) := fun k h => pos_flipPos r h
  have H := checkBit_eq (flipPos r p)
  have H' := checkBit_eq r
  simp only [parityPositions, List.mem_cons, List.not_mem_nil, or_false] at hq
  by_cases h : p ≤ 12
  · rcases hq with rfl | rfl | rfl | rfl <;> simp only [H, H'] <;> interval_cases p <;>
      simp [hp, checkGroup, membership]
  · have hr : flipPos r p = r := by simp [flipPos, h]
    have : decide (p ∈ checkGroup q) = false := by
      rcases hq with rfl | rfl | rfl | rfl <;> simp [checkGroup, membership] <;> omega
    rw [hr, this, Bool.xor_false]

/-- Data bit `i` of the byte extracted from a block is its bit at data position `i` (R104). -/
theorem dataBit_extractByte (w : Codeword) {i : Nat} (h : i < 8) :
    dataBit (extractByte w) i = pos w (dataPositions.getD i 0) :=
  dataBit_byteOf _ h

/-- Extracting the data bits of a codeword gives its byte. -/
theorem extractByte_encodeByte (b : Byte) : extractByte (encodeByte b) = b := by
  apply eq_of_dataBit
  intro i hi
  rw [dataBit_extractByte _ hi]
  obtain ⟨h0, h1, h2, h3, h4, h5, h6, h7⟩ := pos_encodeByte_data b
  interval_cases i <;> simp [dataPositions, *]

/-- Inverting a position twice gives the block back. -/
@[simp] theorem flipPos_flipPos (r : Codeword) (p : Nat) : flipPos (flipPos r p) p = r := by
  apply eq_of_pos
  intro q h1 h2
  rw [pos_flipPos _ ⟨h1, h2⟩, pos_flipPos _ ⟨h1, h2⟩]
  simp

/-- Inverting "position 0" is inverting nothing. -/
@[simp] theorem flipPos_zero (r : Codeword) : flipPos r 0 = r := rfl

/-- Inverting a position adds the position to the syndrome, bit by bit (R64, R106). -/
theorem syndrome_flipPos (r : Codeword) {p : Nat} (h1 : 1 ≤ p) (h2 : p ≤ 12) :
    syndrome (flipPos r p) = syndrome r ^^^ BitVec.ofNat 4 p := by
  unfold syndrome
  rw [checkBit_flipPos r 1 (by decide), checkBit_flipPos r 2 (by decide), checkBit_flipPos r 4 (by decide),
    checkBit_flipPos r 8 (by decide)]
  interval_cases p <;> cases checkBit r 1 <;> cases checkBit r 2 <;> cases checkBit r 4 <;> cases checkBit r 8 <;> decide

/-- The syndrome is 0 exactly when the four check bits are. -/
theorem syndrome_eq_zero_iff (r : Codeword) :
    syndrome r = 0#4 ↔ checkBit r 1 = false ∧ checkBit r 2 = false ∧ checkBit r 4 = false ∧ checkBit r 8 = false := by
  unfold syndrome
  cases checkBit r 1 <;> cases checkBit r 2 <;> cases checkBit r 4 <;> cases checkBit r 8 <;> decide

/-- A block of syndrome 0 is the codeword of the byte it holds (R108). -/
theorem eq_encodeByte_of_syndrome_zero {r : Codeword} (h : syndrome r = 0#4) : r = encodeByte (extractByte r) := by
  obtain ⟨k1, k2, k4, k8⟩ := (syndrome_eq_zero_iff r).mp h
  obtain ⟨c1, c2, c4, c8⟩ := checkBit_eq r
  rw [k1] at c1; rw [k2] at c2; rw [k4] at c4; rw [k8] at c8
  obtain ⟨h0, h1, h2, h3, h4, h5, h6, h7⟩ := pos_encodeByte_data (extractByte r)
  obtain ⟨g1, g2, g4, g8⟩ := pos_encodeByte_parity (extractByte r)
  have d := fun i hi => dataBit_extractByte r (i := i) hi
  rw [d 0 (by omega)] at h0 g1 g2; rw [d 1 (by omega)] at h1 g1 g4; rw [d 2 (by omega)] at h2 g2 g4
  rw [d 3 (by omega)] at h3 g1 g2 g4; rw [d 4 (by omega)] at h4 g1 g8; rw [d 5 (by omega)] at h5 g2 g8
  rw [d 6 (by omega)] at h6 g1 g2 g8; rw [d 7 (by omega)] at h7 g4 g8
  simp only [dataPositions, List.getD_cons_zero, List.getD_cons_succ] at *
  apply eq_of_pos
  intro p hp hq
  interval_cases p <;> grind

end Sys2Proof.Machine
end

