-- ==== Sys2Proof/Laws/Decode.lean ====
section
/-! SUPPORT. The fields of the command words and the words built from fields (30_encoding.md R71). -/

namespace Sys2Proof

/-- The valid field of a word built from its fields. -/
@[simp] theorem ecmdValid_ecmdWord (v : Bit) (d : Byte) : ecmdValid (ecmdWord v d) = v := by
  unfold ecmdValid ecmdWord
  rw [BitVec.getLsbD_append]
  cases v <;> rfl

/-- The data field of a word built from its fields. -/
@[simp] theorem ecmdData_ecmdWord (v : Bit) (d : Byte) : ecmdData (ecmdWord v d) = d := by
  apply BitVec.eq_of_getLsbD_eq
  intro i hi
  unfold ecmdData ecmdWord
  rw [BitVec.getLsbD_extractLsb', BitVec.getLsbD_append]
  simp [hi]

/-- An `ECMD` word is built from its two fields. -/
theorem ecmdWord_eta (w : BitVec 9) : ecmdWord (ecmdValid w) (ecmdData w) = w := by
  apply BitVec.eq_of_getLsbD_eq
  intro i hi
  unfold ecmdData ecmdWord ecmdValid
  rw [BitVec.getLsbD_append, BitVec.getLsbD_extractLsb']
  by_cases h : i < 8
  · simp [h]
  · have : i = 8 := by omega
    subst this
    cases hw : w.getLsbD 8 <;> simp

/-- The fields of a `DCMD` word built from its fields. -/
@[simp] theorem dcmd_dcmdWord (v l b : Bit) :
    dcmdValid (dcmdWord v l b) = v ∧ dcmdLast (dcmdWord v l b) = l ∧ dcmdBit (dcmdWord v l b) = b := by
  cases v <;> cases l <;> cases b <;> decide

/-- A `DCMD` word is built from its three fields. -/
theorem dcmdWord_eta : ∀ w : BitVec 3, dcmdWord (dcmdValid w) (dcmdLast w) (dcmdBit w) = w := by decide

end Sys2Proof
end

