-- ==== Sys2Proof/Laws/State.lean ====
section
/-! SUPPORT. The fields of the state after each update of Machine/Ops.lean: one lemma per field per update, true by rfl, so
that no later proof unfolds a record update. -/

namespace Sys2Proof.Machine

/-! ### encEdge -/

section
variable (s : State) (sr : Codeword) (cnt : Fin 13) (ready : Bool) (taken : Option Byte) (out : Option Bit)

@[simp] theorem encEdge_encSr : (s.encEdge sr cnt ready taken out).encSr = sr := rfl
@[simp] theorem encEdge_encCnt : (s.encEdge sr cnt ready taken out).encCnt = cnt := rfl
@[simp] theorem encEdge_decSr : (s.encEdge sr cnt ready taken out).decSr = s.decSr := rfl
@[simp] theorem encEdge_decCnt : (s.encEdge sr cnt ready taken out).decCnt = s.decCnt := rfl
@[simp] theorem encEdge_resetDone : (s.encEdge sr cnt ready taken out).resetDone = s.resetDone := rfl
@[simp] theorem encEdge_codeOut : (s.encEdge sr cnt ready taken out).codeOut = s.codeOut := rfl
@[simp] theorem encEdge_decoderOut : (s.encEdge sr cnt ready taken out).decoderOut = s.decoderOut := rfl
@[simp] theorem encEdge_encInReady : (s.encEdge sr cnt ready taken out).encInReady = ready := rfl
@[simp] theorem encEdge_encIn : (s.encEdge sr cnt ready taken out).encIn = taken := rfl
@[simp] theorem encEdge_encOut : (s.encEdge sr cnt ready taken out).encOut = out := rfl
@[simp] theorem encEdge_decIn : (s.encEdge sr cnt ready taken out).decIn = s.decIn := rfl
@[simp] theorem encEdge_decOut : (s.encEdge sr cnt ready taken out).decOut = s.decOut := rfl
@[simp] theorem encEdge_boundary : (s.encEdge sr cnt ready taken out).boundary = s.boundary := rfl
@[simp] theorem encEdge_inputs : (s.encEdge sr cnt ready taken out).inputs = s.inputs := rfl

end

/-! ### decEdge -/

section
variable (s : State) (sr : BitVec 11) (cnt : Fin 12) (taken : Option Bit) (out : Option Decoded) (bound : Bool)

@[simp] theorem decEdge_encSr : (s.decEdge sr cnt taken out bound).encSr = s.encSr := rfl
@[simp] theorem decEdge_encCnt : (s.decEdge sr cnt taken out bound).encCnt = s.encCnt := rfl
@[simp] theorem decEdge_decSr : (s.decEdge sr cnt taken out bound).decSr = sr := rfl
@[simp] theorem decEdge_decCnt : (s.decEdge sr cnt taken out bound).decCnt = cnt := rfl
@[simp] theorem decEdge_resetDone : (s.decEdge sr cnt taken out bound).resetDone = s.resetDone := rfl
@[simp] theorem decEdge_codeOut : (s.decEdge sr cnt taken out bound).codeOut = s.codeOut := rfl
@[simp] theorem decEdge_decoderOut : (s.decEdge sr cnt taken out bound).decoderOut = s.decoderOut := rfl
@[simp] theorem decEdge_encInReady : (s.decEdge sr cnt taken out bound).encInReady = s.encInReady := rfl
@[simp] theorem decEdge_encIn : (s.decEdge sr cnt taken out bound).encIn = s.encIn := rfl
@[simp] theorem decEdge_encOut : (s.decEdge sr cnt taken out bound).encOut = s.encOut := rfl
@[simp] theorem decEdge_decIn : (s.decEdge sr cnt taken out bound).decIn = taken := rfl
@[simp] theorem decEdge_decOut : (s.decEdge sr cnt taken out bound).decOut = out := rfl
@[simp] theorem decEdge_boundary : (s.decEdge sr cnt taken out bound).boundary = bound := rfl
@[simp] theorem decEdge_inputs : (s.decEdge sr cnt taken out bound).inputs = s.inputs := rfl

end

/-! ### beginStep -/

section
variable (s : State)

@[simp] theorem beginStep_encSr : s.beginStep.encSr = s.encSr := rfl
@[simp] theorem beginStep_encCnt : s.beginStep.encCnt = s.encCnt := rfl
@[simp] theorem beginStep_decSr : s.beginStep.decSr = s.decSr := rfl
@[simp] theorem beginStep_decCnt : s.beginStep.decCnt = s.decCnt := rfl
@[simp] theorem beginStep_resetDone : s.beginStep.resetDone = s.resetDone := rfl
@[simp] theorem beginStep_codeOut : s.beginStep.codeOut = s.codeOut := rfl
@[simp] theorem beginStep_decoderOut : s.beginStep.decoderOut = s.decoderOut := rfl
@[simp] theorem beginStep_encInReady : s.beginStep.encInReady = false := rfl
@[simp] theorem beginStep_encIn : s.beginStep.encIn = none := rfl
@[simp] theorem beginStep_encOut : s.beginStep.encOut = none := rfl
@[simp] theorem beginStep_decIn : s.beginStep.decIn = none := rfl
@[simp] theorem beginStep_decOut : s.beginStep.decOut = none := rfl
@[simp] theorem beginStep_boundary : s.beginStep.boundary = false := rfl
@[simp] theorem beginStep_inputs : s.beginStep.inputs = s.inputs.tail := rfl

end

/-! ### setCodeOut -/

section
variable (s : State) (c : Codeword)

@[simp] theorem setCodeOut_encSr : (s.setCodeOut c).encSr = s.encSr := rfl
@[simp] theorem setCodeOut_encCnt : (s.setCodeOut c).encCnt = s.encCnt := rfl
@[simp] theorem setCodeOut_decSr : (s.setCodeOut c).decSr = s.decSr := rfl
@[simp] theorem setCodeOut_decCnt : (s.setCodeOut c).decCnt = s.decCnt := rfl
@[simp] theorem setCodeOut_resetDone : (s.setCodeOut c).resetDone = s.resetDone := rfl
@[simp] theorem setCodeOut_codeOut : (s.setCodeOut c).codeOut = some c := rfl
@[simp] theorem setCodeOut_decoderOut : (s.setCodeOut c).decoderOut = s.decoderOut := rfl
@[simp] theorem setCodeOut_encInReady : (s.setCodeOut c).encInReady = s.encInReady := rfl
@[simp] theorem setCodeOut_encIn : (s.setCodeOut c).encIn = s.encIn := rfl
@[simp] theorem setCodeOut_encOut : (s.setCodeOut c).encOut = s.encOut := rfl
@[simp] theorem setCodeOut_decIn : (s.setCodeOut c).decIn = s.decIn := rfl
@[simp] theorem setCodeOut_decOut : (s.setCodeOut c).decOut = s.decOut := rfl
@[simp] theorem setCodeOut_boundary : (s.setCodeOut c).boundary = s.boundary := rfl
@[simp] theorem setCodeOut_inputs : (s.setCodeOut c).inputs = s.inputs := rfl

end

/-! ### setDecoderOut -/

section
variable (s : State) (o : Decoded)

@[simp] theorem setDecoderOut_encSr : (s.setDecoderOut o).encSr = s.encSr := rfl
@[simp] theorem setDecoderOut_encCnt : (s.setDecoderOut o).encCnt = s.encCnt := rfl
@[simp] theorem setDecoderOut_decSr : (s.setDecoderOut o).decSr = s.decSr := rfl
@[simp] theorem setDecoderOut_decCnt : (s.setDecoderOut o).decCnt = s.decCnt := rfl
@[simp] theorem setDecoderOut_resetDone : (s.setDecoderOut o).resetDone = s.resetDone := rfl
@[simp] theorem setDecoderOut_codeOut : (s.setDecoderOut o).codeOut = s.codeOut := rfl
@[simp] theorem setDecoderOut_decoderOut : (s.setDecoderOut o).decoderOut = some o := rfl
@[simp] theorem setDecoderOut_encInReady : (s.setDecoderOut o).encInReady = s.encInReady := rfl
@[simp] theorem setDecoderOut_encIn : (s.setDecoderOut o).encIn = s.encIn := rfl
@[simp] theorem setDecoderOut_encOut : (s.setDecoderOut o).encOut = s.encOut := rfl
@[simp] theorem setDecoderOut_decIn : (s.setDecoderOut o).decIn = s.decIn := rfl
@[simp] theorem setDecoderOut_decOut : (s.setDecoderOut o).decOut = s.decOut := rfl
@[simp] theorem setDecoderOut_boundary : (s.setDecoderOut o).boundary = s.boundary := rfl
@[simp] theorem setDecoderOut_inputs : (s.setDecoderOut o).inputs = s.inputs := rfl

end

/-! ### resetRegisters -/

section
variable (s : State)

@[simp] theorem resetRegisters_encSr : s.resetRegisters.encSr = 0#12 := rfl
@[simp] theorem resetRegisters_encCnt : s.resetRegisters.encCnt = 0 := rfl
@[simp] theorem resetRegisters_decSr : s.resetRegisters.decSr = 0#11 := rfl
@[simp] theorem resetRegisters_decCnt : s.resetRegisters.decCnt = 0 := rfl
@[simp] theorem resetRegisters_resetDone : s.resetRegisters.resetDone = true := rfl
@[simp] theorem resetRegisters_codeOut : s.resetRegisters.codeOut = s.codeOut := rfl
@[simp] theorem resetRegisters_decoderOut : s.resetRegisters.decoderOut = s.decoderOut := rfl
@[simp] theorem resetRegisters_encInReady : s.resetRegisters.encInReady = false := rfl
@[simp] theorem resetRegisters_encIn : s.resetRegisters.encIn = none := rfl
@[simp] theorem resetRegisters_encOut : s.resetRegisters.encOut = none := rfl
@[simp] theorem resetRegisters_decIn : s.resetRegisters.decIn = none := rfl
@[simp] theorem resetRegisters_decOut : s.resetRegisters.decOut = none := rfl
@[simp] theorem resetRegisters_boundary : s.resetRegisters.boundary = true := rfl
@[simp] theorem resetRegisters_inputs : s.resetRegisters.inputs = s.inputs := rfl

end

end Sys2Proof.Machine
end

