-- ==== Sys2Proof/Laws/Ops.lean ====
section
/-! SUPPORT. What the shared operations can do, said once each: the guard of R182, the counters, and the two channels' edges by
case. -/

namespace Sys2Proof.Machine

/-- After a RESET the guard lets the operation through (R182). -/
@[simp] theorem whenReset_of_done {s : State} (h : s.resetDone = true) (t : State) : s.whenReset t = .next t := by
  simp [State.whenReset, h]

/-- Before the first RESET the guard refuses (R182). -/
@[simp] theorem whenReset_of_not_done {s : State} (h : s.resetDone = false) (t : State) :
    s.whenReset t = .refused .beforeFirstReset := by
  simp [State.whenReset, h]

/-- Where the guard answers a next state, a RESET was performed and the operation had its effect. -/
theorem whenReset_eq_next {s t u : State} : s.whenReset t = .next u ↔ s.resetDone = true ∧ t = u := by
  unfold State.whenReset
  split <;> simp_all

@[simp] theorem encIdle_iff {s : State} : s.encIdle = true ↔ s.encCnt = 0 := by simp [State.encIdle]

/-- Idleness is a matter of the counter alone. -/
theorem encIdle_congr {s t : State} (h : s.encCnt = t.encCnt) : s.encIdle = t.encIdle := by simp [State.encIdle, h]

@[simp] theorem encIdle_beginStep (s : State) : s.beginStep.encIdle = s.encIdle := rfl

@[simp] theorem countDown_val (n : Fin 13) : (countDown n).val = n.val - 1 := rfl

/-- Below 11 the chunk counter counts up by one (R135). -/
theorem countUp_val {n : Fin 12} (h : n ≠ 11) : (countUp n).val = n.val + 1 := by
  have : n.val + 1 < 12 := by
    have := n.isLt
    have : n.val ≠ 11 := fun e => h (Fin.ext e)
    omega
  simp [countUp, this]

/-- Shifting the send register drops its top bit and brings in a zero (R8, R132). -/
theorem shift_eq_shiftLeft (c : Codeword) : (c.setWidth 11).concat false = c <<< 1 := by
  apply BitVec.eq_of_getLsbD_eq
  intro i hi
  rcases i with _ | i
  · simp
  · simp only [BitVec.getLsbD_concat_succ, BitVec.getLsbD_setWidth, BitVec.getLsbD_shiftLeft]
    have : i < 11 := by omega
    simp [this, hi]

/-- Taking a bit: either the twelfth, which completes the block, or one more of the chunk (R135). -/
theorem takeBit_cases (s : State) (b : Bit) :
    (s.decCnt = 11 ∧ s.takeBit b = s.decEdge 0#11 0 (some b) (some (decodedOf (decBlock s b))) false) ∨
    (s.decCnt ≠ 11 ∧ s.takeBit b = s.decEdge ((s.decSr.setWidth 10).concat b) (countUp s.decCnt) (some b) none false) := by
  unfold State.takeBit
  split
  · next h => exact .inl ⟨h, rfl⟩
  · next h => exact .inr ⟨h, rfl⟩

end Sys2Proof.Machine
end

