-- ==== Sys2Proof/Laws/PerInstr.lean ====
section
/-! SUPPORT. One statement for every row of spec/opcode_table.json: the word of the operation is of the row's format, fits its
width, and has the row's fixed bits (30_encoding.md R71, R72). -/

namespace Sys2Proof.Laws.TableRow

/-- A port word as a number with its format. -/
def raw : PortWord → RawWord
  | .enc8 w => ⟨.enc8, w.toNat⟩
  | .dec12 w => ⟨.dec12, w.toNat⟩
  | .rst w => ⟨.rst, w.toNat⟩
  | .ecmd w => ⟨.ecmd, w.toNat⟩
  | .dcmd w => ⟨.dcmd, w.toNat⟩

/-- The row's columns `mask` and `match`. -/
def maskAndMatch : Instr → Nat × Nat
  | .enc _ => (0x00, 0x00)
  | .dec _ => (0x000, 0x000)
  | .reset => (0x1, 0x1)
  | .epush _ => (0x100, 0x100)
  | .eidle _ => (0x100, 0x000)
  | .eshift _ => (0x000, 0x000)
  | .didle _ => (0x6, 0x0)
  | .dbit _ => (0x6, 0x4)
  | .dbitl _ => (0x6, 0x6)
  | .dend _ => (0x6, 0x2)

/-- The operation's word is a word of its table row. -/
def Statement (i : Instr) : Prop :=
  (raw (encode i)).format = i.format ∧ (raw (encode i)).fits = true ∧
    (raw (encode i)).value &&& (maskAndMatch i).1 = (maskAndMatch i).2

/-- `ENC`. -/
theorem enc (d : Byte) : Statement (.enc d) := by
  refine ⟨rfl, ?_, by simp [maskAndMatch]⟩
  exact decide_eq_true d.isLt

/-- `DEC`. -/
theorem dec (c : Codeword) : Statement (.dec c) := by
  refine ⟨rfl, ?_, by simp [maskAndMatch]⟩
  exact decide_eq_true c.isLt

/-- `RESET`. -/
theorem reset : Statement .reset := by
  unfold Statement
  decide

/-- `EPUSH`. -/
theorem epush (d : Byte) : Statement (.epush d) := by
  refine ⟨rfl, ?_, ?_⟩
  · exact decide_eq_true (ecmdWord true d).isLt
  · revert d
    decide

/-- `EIDLE`. -/
theorem eidle (x : BitVec 8) : Statement (.eidle x) := by
  refine ⟨rfl, ?_, ?_⟩
  · exact decide_eq_true (ecmdWord false x).isLt
  · revert x
    decide

/-- `ESHIFT`. -/
theorem eshift (x : BitVec 9) : Statement (.eshift x) := by
  refine ⟨rfl, ?_, by simp [maskAndMatch]⟩
  exact decide_eq_true x.isLt

/-- `DIDLE`. -/
theorem didle (x : Bit) : Statement (.didle x) := by
  cases x <;> unfold Statement <;> decide

/-- `DBIT`. -/
theorem dbit (b : Bit) : Statement (.dbit b) := by
  cases b <;> unfold Statement <;> decide

/-- `DBITL`. -/
theorem dbitl (b : Bit) : Statement (.dbitl b) := by
  cases b <;> unfold Statement <;> decide

/-- `DEND`. -/
theorem dend (x : Bit) : Statement (.dend x) := by
  cases x <;> unfold Statement <;> decide

end Sys2Proof.Laws.TableRow
end

