-- ==== Sys2Proof/Laws/Step.lean ====
section
/-! SUPPORT. What a step can do: the edge of each channel as one function of its command word, and a step as an equation for each
kind of input (42_codec_stream.md R138). -/

namespace Sys2Proof.Machine

/-- The encode channel after an edge with `rst = 0` (R130 to R132). -/
def encAfter (e : BitVec 9) (s : State) : State :=
  if s.encIdle then (if ecmdValid e then s.acceptByte (ecmdData e) else s.encodeIdle) else s.shiftOut

/-- The decode channel after an edge with `rst = 0` (R134 to R137). -/
def decAfter (w : BitVec 3) (s : State) : State :=
  match dcmdValid w, dcmdLast w with
  | false, false => s.noBit
  | true, false => s.takeBit (dcmdBit w)
  | true, true => (s.takeBit (dcmdBit w)).applyBoundary
  | false, true => s.noBit.applyBoundary

/-- The selected encode-channel operation has the channel's edge as its effect. -/
theorem exec_decodeEcmd {s : State} (h : s.resetDone = true) (e : BitVec 9) :
    exec (decodeEcmd s.encIdle e) s = .next (encAfter e s) := by
  unfold decodeEcmd encAfter
  split
  · next hi => split <;> simp [exec, execEpush, execEidle, h, hi]
  · next hi => simp [exec, execEshift, h, hi]

/-- The selected decode-channel operation has the channel's edge as its effect. -/
theorem exec_decodeDcmd {s : State} (h : s.resetDone = true) (w : BitVec 3) :
    exec (decodeDcmd w) s = .next (decAfter w s) := by
  unfold decodeDcmd decAfter
  cases dcmdValid w <;> cases dcmdLast w <;> simp [exec, execDidle, execDbit, execDbitl, execDend, h]

@[simp] theorem encAfter_resetDone (e : BitVec 9) (s : State) : (encAfter e s).resetDone = s.resetDone := by
  unfold encAfter
  split
  · split <;> rfl
  · rfl

@[simp] theorem takeBit_resetDone (s : State) (b : Bit) : (s.takeBit b).resetDone = s.resetDone := by
  unfold State.takeBit; split <;> rfl

@[simp] theorem takeBit_inputs (s : State) (b : Bit) : (s.takeBit b).inputs = s.inputs := by
  unfold State.takeBit; split <;> rfl

@[simp] theorem decAfter_resetDone (w : BitVec 3) (s : State) : (decAfter w s).resetDone = s.resetDone := by
  unfold decAfter
  split <;> simp [State.noBit, State.applyBoundary]

/-- A clock cycle with `rst = 0`: both channels at their edge. -/
theorem step_clock {s : State} (h : s.resetDone = true) {e : BitVec 9} {w : BitVec 3}
    (hi : s.nextInput = .clock false e w) : step s = .next (decAfter w (encAfter e s.beginStep)) := by
  have h1 := exec_decodeEcmd (s := s.beginStep) h e
  have h2 := exec_decodeDcmd (s := encAfter e s.beginStep) (by simpa using h) w
  rw [encIdle_beginStep] at h1
  simp only [step, hi, selectedOps, runOps, h1, h2]

/-- A clock cycle with `rst = 1`: `RESET`. -/
theorem step_reset {s : State} {e : BitVec 9} {w : BitVec 3} (hi : s.nextInput = .clock true e w) :
    step s = .next s.beginStep.resetRegisters := by
  simp [step, hi, selectedOps, runOps, exec, execReset]

/-- A steady byte at `hamming_encoder`. -/
theorem step_encoder {s : State} {d : Byte} (hi : s.nextInput = .encoder d) :
    step s = .next (s.beginStep.setCodeOut (encodeByte d)) := by
  simp [step, hi, selectedOps, runOps, exec, execEnc]

/-- A steady block at `hamming_syndrome_decoder`. -/
theorem step_decoder {s : State} {c : Codeword} (hi : s.nextInput = .decoder c) :
    step s = .next (s.beginStep.setDecoderOut (decodedOf c)) := by
  simp [step, hi, selectedOps, runOps, exec, execDec]

/-- Everything a step can do once a RESET has been performed: one of four inputs, and for each one next state. -/
theorem step_cases {s : State} (h : s.resetDone = true) :
    (∃ d, s.nextInput = .encoder d ∧ step s = .next (s.beginStep.setCodeOut (encodeByte d))) ∨
    (∃ c, s.nextInput = .decoder c ∧ step s = .next (s.beginStep.setDecoderOut (decodedOf c))) ∨
    (∃ e w, s.nextInput = .clock true e w ∧ step s = .next s.beginStep.resetRegisters) ∨
    (∃ e w, s.nextInput = .clock false e w ∧ step s = .next (decAfter w (encAfter e s.beginStep))) := by
  cases hi : s.nextInput with
  | encoder d => exact .inl ⟨d, rfl, step_encoder hi⟩
  | decoder c => exact .inr (.inl ⟨c, rfl, step_decoder hi⟩)
  | clock r e w =>
    cases r with
    | true => exact .inr (.inr (.inl ⟨e, w, rfl, step_reset hi⟩))
    | false => exact .inr (.inr (.inr ⟨e, w, rfl, step_clock h hi⟩))

/-- Before the first RESET the encode channel's operation is refused (R182). -/
theorem exec_decodeEcmd_refused {s : State} (h : s.resetDone = false) (idle : Bool) (e : BitVec 9) :
    exec (decodeEcmd idle e) s = .refused .beforeFirstReset := by
  unfold decodeEcmd
  split
  · split <;> simp [exec, execEpush, execEidle, h]
  · simp [exec, execEshift, h]

/-- Before the first RESET a clock cycle with `rst = 0` is refused (R182). -/
theorem step_clock_refused {s : State} (h : s.resetDone = false) {e : BitVec 9} {w : BitVec 3}
    (hi : s.nextInput = .clock false e w) : step s = .refused .beforeFirstReset := by
  have h1 := exec_decodeEcmd_refused (s := s.beginStep) h s.encIdle e
  simp only [step, hi, selectedOps, runOps, h1]

/-- The inversion of step: if it answers a next state, then one of four inputs was presented and that state is the one it gives. -/
theorem step_next_cases {s t : State} (h : step s = .next t) :
    (∃ d, s.nextInput = .encoder d ∧ t = s.beginStep.setCodeOut (encodeByte d)) ∨
    (∃ c, s.nextInput = .decoder c ∧ t = s.beginStep.setDecoderOut (decodedOf c)) ∨
    (∃ e w, s.nextInput = .clock true e w ∧ t = s.beginStep.resetRegisters) ∨
    (∃ e w, s.resetDone = true ∧ s.nextInput = .clock false e w ∧ t = decAfter w (encAfter e s.beginStep)) := by
  cases hi : s.nextInput with
  | encoder d => rw [step_encoder hi] at h; exact .inl ⟨d, rfl, by simpa using h.symm⟩
  | decoder c => rw [step_decoder hi] at h; exact .inr (.inl ⟨c, rfl, by simpa using h.symm⟩)
  | clock r e w =>
    cases r with
    | true => rw [step_reset hi] at h; exact .inr (.inr (.inl ⟨e, w, rfl, by simpa using h.symm⟩))
    | false =>
      by_cases hr : s.resetDone = true
      · rw [step_clock hr hi] at h
        exact .inr (.inr (.inr ⟨e, w, hr, rfl, by simpa using h.symm⟩))
      · rw [step_clock_refused (by simpa using hr) hi] at h
        cases h

/-- The decode channel's edge leaves the encode channel alone (R126). -/
theorem decAfter_frame (w : BitVec 3) (s : State) :
    (decAfter w s).encSr = s.encSr ∧ (decAfter w s).encCnt = s.encCnt ∧ (decAfter w s).encInReady = s.encInReady ∧
    (decAfter w s).encIn = s.encIn ∧ (decAfter w s).encOut = s.encOut ∧ (decAfter w s).inputs = s.inputs ∧
    (decAfter w s).codeOut = s.codeOut ∧ (decAfter w s).decoderOut = s.decoderOut := by
  unfold decAfter
  split <;> simp only [State.noBit, State.applyBoundary, State.takeBit] <;> (try split) <;>
    exact ⟨rfl, rfl, rfl, rfl, rfl, rfl, rfl, rfl⟩

/-- The encode channel's edge leaves the decode channel alone (R126). -/
theorem encAfter_frame (e : BitVec 9) (s : State) :
    (encAfter e s).decSr = s.decSr ∧ (encAfter e s).decCnt = s.decCnt ∧ (encAfter e s).decIn = s.decIn ∧
    (encAfter e s).decOut = s.decOut ∧ (encAfter e s).boundary = s.boundary ∧ (encAfter e s).inputs = s.inputs ∧
    (encAfter e s).codeOut = s.codeOut ∧ (encAfter e s).decoderOut = s.decoderOut := by
  unfold encAfter
  split
  · split <;> exact ⟨rfl, rfl, rfl, rfl, rfl, rfl, rfl, rfl⟩
  · exact ⟨rfl, rfl, rfl, rfl, rfl, rfl, rfl, rfl⟩

end Sys2Proof.Machine
end

