-- ==== Sys2Proof/Laws/Stream.lean ====
section
/-! SUPPORT. The stream functions block by block: a stream that begins with a whole block decodes to that block's pair and then
the rest (42_codec_stream.md R121, R124). -/

namespace Sys2Proof.Machine

/-- Position `p` of chunk `k` is stream bit `12k + p - 1` (R121). -/
theorem pos_chunk (x : List Bit) (k : Nat) {p : Nat} (h : 1 ≤ p ∧ p ≤ 12) :
    pos (chunk x k) p = x.getD (12 * k + p - 1) false :=
  pos_blockOf _ h

/-- Chunk 0 of a stream that begins with a codeword is the codeword. -/
theorem chunk_codewordBits_append (c : Codeword) (x : List Bit) : chunk (codewordBits c ++ x) 0 = c := by
  apply eq_of_pos
  intro p h1 h2
  rw [pos_chunk _ _ ⟨h1, h2⟩, List.getD_eq_getElem?_getD, List.getElem?_append_left (by simp; omega),
    codewordBits_getElem? c (by omega)]
  simp [show p - 1 + 1 = p by omega]

/-- Chunks after a first whole block are the chunks of the rest. -/
theorem chunk_append_succ {l : List Bit} (h : l.length = 12) (x : List Bit) (k : Nat) : chunk (l ++ x) (k + 1) = chunk x k := by
  apply eq_of_pos
  intro p h1 h2
  rw [pos_chunk _ _ ⟨h1, h2⟩, pos_chunk _ _ ⟨h1, h2⟩, List.getD_eq_getElem?_getD, List.getD_eq_getElem?_getD,
    List.getElem?_append_right (by omega)]
  congr 2
  omega

/-- Chunk 0 depends on the first block alone. -/
theorem chunk_append_zero {l : List Bit} (h : l.length = 12) (x : List Bit) : chunk (l ++ x) 0 = chunk l 0 := by
  apply eq_of_pos
  intro p h1 h2
  rw [pos_chunk _ _ ⟨h1, h2⟩, pos_chunk _ _ ⟨h1, h2⟩, List.getD_eq_getElem?_getD, List.getD_eq_getElem?_getD,
    List.getElem?_append_left (by omega)]

/-- Fewer than twelve bits decode to nothing. -/
theorem decodeAllX_of_short {x : List Bit} (h : x.length < 12) : decodeAllX x = [] := by
  simp [decodeAllX, Nat.div_eq_of_lt h]

/-- A whole block in front decodes by itself (R121). -/
theorem decodeAllX_block {l : List Bit} (h : l.length = 12) (x : List Bit) :
    decodeAllX (l ++ x) = decodeBlock (chunk l 0) :: decodeAllX x := by
  have hl : (l ++ x).length / 12 = x.length / 12 + 1 := by
    rw [List.length_append, h]
    omega
  simp only [decodeAllX, hl, List.range_succ_eq_map, List.map_cons, List.map_map, chunk_append_zero h]
  congr 1
  apply List.map_congr_left
  intro k _
  simp [Function.comp, chunk_append_succ h]

/-- A codeword in front decodes by itself. -/
theorem decodeAllX_codeword (c : Codeword) (x : List Bit) :
    decodeAllX (codewordBits c ++ x) = decodeBlock c :: decodeAllX x := by
  rw [decodeAllX_block (codewordBits_length c)]
  have := chunk_codewordBits_append c []
  rw [List.append_nil] at this
  rw [this]

/-- Whole blocks in front decode by themselves. -/
theorem decodeAllX_append (x y : List Bit) (h : x.length % 12 = 0) :
    decodeAllX (x ++ y) = decodeAllX x ++ decodeAllX y := by
  induction hn : x.length / 12 generalizing x with
  | zero =>
    have : x = [] := List.eq_nil_of_length_eq_zero (by omega)
    subst this
    simp [decodeAllX_of_short]
  | succ n ih =>
    have hl : (x.take 12).length = 12 := by rw [List.length_take]; omega
    have hx : x = x.take 12 ++ x.drop 12 := (List.take_append_drop 12 x).symm
    have hd : (x.drop 12).length = x.length - 12 := List.length_drop
    rw [hx, List.append_assoc, decodeAllX_block hl, decodeAllX_block hl,
      ih (x.drop 12) (by omega) (by omega), List.cons_append]

@[simp] theorem encodeAll_nil : encodeAll [] = [] := rfl

@[simp] theorem encodeAll_cons (b : Byte) (bs : List Byte) :
    encodeAll (b :: bs) = codewordBits (encodeByte b) ++ encodeAll bs := rfl

/-- `ENCALL` of a concatenation (R120). -/
theorem encodeAll_append (bs cs : List Byte) : encodeAll (bs ++ cs) = encodeAll bs ++ encodeAll cs := by
  simp [encodeAll, List.flatMap_append]

end Sys2Proof.Machine
end

