-- ==== Sys2Proof/Laws/Trace.lean ====
section
/-! SUPPORT. Runs one step at a time: what a step does to the bits owed by the encode channel and to the chunk kept by the decode
channel (42_codec_stream.md R130 to R137, R139, R140). -/

namespace Sys2Proof.Machine

/-- A run that can step begins with that step. -/
theorem observe_succ {n : Nat} {s t : State} (h : step s = .next t) : observe (n + 1) s = t :: observe n t := by
  simp only [observe, h]

/-- A step consumes one entry of what the environment drives. -/
theorem step_inputs {s t : State} (hs : step s = .next t) : t.inputs = s.inputs.tail := by
  rcases step_next_cases hs with ⟨d, -, rfl⟩ | ⟨d, -, rfl⟩ | ⟨d, w, -, rfl⟩ | ⟨e, w, -, -, rfl⟩
  · simp
  · simp
  · simp
  · rw [(decAfter_frame w _).2.2.2.2.2.1, (encAfter_frame e _).2.2.2.2.2.1]
    simp

/-- Entries that send nothing are followed by such entries only, and the next input is one (R184). -/
theorem nextInput_sends {s : State} (h : ∀ p ∈ s.inputs, p.sends = false) : s.nextInput.sends = false := by
  unfold State.nextInput
  cases hi : s.inputs with
  | nil => rfl
  | cons p ps => exact h p (by simp [hi])

/-- In a running cycle that sends nothing both valid bits are 0 (R128). -/
theorem sends_clock_false {e : BitVec 9} {w : BitVec 3} :
    (PortInput.clock false e w).sends = false ↔ ecmdValid e = false ∧ dcmdValid w = false := by
  simp [PortInput.sends]

/-! ### The bits the encode channel owes -/

/-- The shift of R132 moves position `p + 1` to position `p`. -/
theorem pos_shift (c : Codeword) {p : Nat} (h1 : 1 ≤ p) (h2 : p ≤ 11) :
    pos ((c.setWidth 11).concat false) p = pos c (p + 1) := by
  have a1 : decide (1 ≤ p ∧ p ≤ 12) = true := by simp; omega
  have a2 : decide (1 ≤ p + 1 ∧ p + 1 ≤ 12) = true := by simp; omega
  simp only [pos, a1, a2]
  rw [show 12 - p = (11 - p) + 1 by omega, BitVec.getLsbD_concat_succ, BitVec.getLsbD_setWidth,
    show 12 - (p + 1) = 11 - p by omega]
  simp
  intro
  omega

/-- An idle channel owes nothing. -/
theorem pendingBits_idle {s : State} (h : s.encCnt = 0) : pendingBits s = [] := by simp [pendingBits, h]

/-- The bits owed are a function of the two registers. -/
theorem pendingBits_congr {s t : State} (h1 : s.encSr = t.encSr) (h2 : s.encCnt = t.encCnt) : pendingBits s = pendingBits t := by
  simp [pendingBits, h1, h2]

/-- A shift puts out the first bit owed (R132). -/
theorem pendingBits_shiftOut (s : State) (h : s.encCnt ≠ 0) : pendingBits s = encOutBitWire s :: pendingBits s.shiftOut := by
  have h0 : s.encCnt.val ≠ 0 := fun e => h (Fin.ext e)
  have hlt := s.encCnt.isLt
  apply List.ext_getElem?
  intro i
  simp only [pendingBits, State.shiftOut, encEdge_encSr, encEdge_encCnt, countDown_val]
  cases i with
  | zero =>
    rw [List.getElem?_take, if_pos (by omega), codewordBits_getElem? _ (by omega)]
    simp [pos, encOutBitWire]
  | succ i =>
    rw [List.getElem?_cons_succ, List.getElem?_take, List.getElem?_take]
    by_cases hi : i + 1 < s.encCnt.val
    · rw [if_pos hi, if_pos (by omega), codewordBits_getElem? _ (by omega), codewordBits_getElem? _ (by omega),
        pos_shift _ (by omega) (by omega)]
    · rw [if_neg hi, if_neg (by omega)]

/-! ### The chunk the decode channel keeps -/

@[simp] theorem storedBits_length (s : State) : (storedBits s).length = s.decCnt.val := by simp [storedBits]

/-- An empty chunk. -/
theorem storedBits_empty {s : State} (h : s.decCnt = 0) : storedBits s = [] := by simp [storedBits, h]

/-- The stored bits are a function of the two registers. -/
theorem storedBits_congr {s t : State} (h1 : s.decSr = t.decSr) (h2 : s.decCnt = t.decCnt) : storedBits s = storedBits t := by
  simp [storedBits, h1, h2]

/-- Stored bit `i` in arrival order is bit `dec_cnt - 1 - i` of the register (R26). -/
theorem storedBits_getElem? (s : State) {i : Nat} (h : i < s.decCnt.val) :
    (storedBits s)[i]? = some (s.decSr.getLsbD (s.decCnt.val - 1 - i)) := by
  unfold storedBits
  rw [List.getElem?_reverse (by simpa using h)]
  simp only [List.length_map, List.length_range, List.getElem?_map]
  rw [List.getElem?_range (by omega)]
  rfl

/-- A bit that does not complete the block joins the chunk (R135). -/
theorem storedBits_takeBit (s : State) (b : Bit) (h : s.decCnt ≠ 11) : storedBits (s.takeBit b) = storedBits s ++ [b] := by
  have hlt := s.decCnt.isLt
  have hne : s.decCnt.val ≠ 11 := fun e => h (Fin.ext e)
  have e1 : (s.takeBit b).decSr = (s.decSr.setWidth 10).concat b := by simp [State.takeBit, h]
  have e2 : (s.takeBit b).decCnt.val = s.decCnt.val + 1 := by
    simp only [State.takeBit, h, if_false, decEdge_decCnt, countUp]
    rw [dif_pos (by omega)]
  unfold storedBits
  rw [e1, e2, List.range_succ_eq_map, List.map_cons, List.reverse_cons, List.map_map]
  congr 1
  · congr 1
    apply List.map_congr_left
    intro j hj
    have := List.mem_range.mp hj
    simp only [Function.comp, Nat.succ_eq_add_one]
    rw [BitVec.getLsbD_concat_succ, BitVec.getLsbD_setWidth]
    have : decide (j < 10) = true := by simp; omega
    simp [this]
  · simp

/-- The eleven stored bits and the twelfth are the block `(dec_sr, b)` (R133). -/
theorem chunk_storedBits (s : State) (b : Bit) (h : s.decCnt = 11) : chunk (storedBits s ++ [b]) 0 = decBlock s b := by
  have hl : (storedBits s).length = 11 := by simp [h]
  apply eq_of_pos
  intro p h1 h2
  rw [pos_chunk _ _ ⟨h1, h2⟩, List.getD_eq_getElem?_getD]
  have a : decide (1 ≤ p ∧ p ≤ 12) = true := by simp; omega
  simp only [pos, a, decBlock, Bool.true_and]
  by_cases hp : p = 12
  · subst hp
    rw [List.getElem?_append_right (by omega), hl]
    simp
  · rw [List.getElem?_append_left (by omega), storedBits_getElem? _ (by rw [h]; show _ < 11; omega),
      show 12 - p = (11 - p) + 1 by omega, BitVec.getLsbD_concat_succ, h]
    simp
    congr 1
    show 11 - 1 - _ = _
    omega

end Sys2Proof.Machine
end

