-- ==== Sys2Proof/Tests/Slice0.lean ====
section
/-! SUPPORT. The package's own tests. Expected results are from the spec: 95_test_vectors.md, whose row each docstring names,
and the patterns of 30_encoding.md R72. The last part has, for every statement with hypotheses, a witness that meets them. -/

namespace Sys2Proof.Tests

open Sys2Proof Sys2Proof.Machine

/-! ### WellFormed: a number too wide for its format is refused, the widest that fits is not (R71) -/

theorem test_wf_rst : RawWord.fits ⟨.rst, 2⟩ = false ∧ RawWord.fits ⟨.rst, 1⟩ = true := by decide

theorem test_wf_dcmd : RawWord.fits ⟨.dcmd, 8⟩ = false ∧ RawWord.fits ⟨.dcmd, 7⟩ = true := by decide

theorem test_wf_ecmd : RawWord.fits ⟨.ecmd, 512⟩ = false ∧ RawWord.fits ⟨.ecmd, 511⟩ = true := by decide

theorem test_wf_dec12 : RawWord.fits ⟨.dec12, 4096⟩ = false ∧ RawWord.fits ⟨.dec12, 4095⟩ = true := by decide

theorem test_wf_enc8 : RawWord.fits ⟨.enc8, 256⟩ = false ∧ RawWord.fits ⟨.enc8, 255⟩ = true := by decide

/-- The decoder refuses what the check refuses, by name. -/
theorem test_decodeRaw_rejects : decodeRaw true ⟨.enc8, 256⟩ = .error (.tooWide .enc8) ∧
    decodeRaw true ⟨.dec12, 4096⟩ = .error (.tooWide .dec12) ∧ decodeRaw true ⟨.rst, 2⟩ = .error (.tooWide .rst) ∧
    decodeRaw true ⟨.ecmd, 512⟩ = .error (.tooWide .ecmd) ∧ decodeRaw true ⟨.rst, 0⟩ = .error .rstLow := by decide

/-! ### Decode: each pattern of R72 written out bit by bit, other operand bits than in the statement SampleWordsDecode -/

/-- `ENC8 = dddddddd`. -/
theorem test_decode_enc : decode true (.enc8 0b01101001#8) = .ok (.enc 0x69#8) := by decide

/-- `DEC12 = cccccccccccc`. -/
theorem test_decode_dec : decode true (.dec12 0b000000001101#12) = .ok (.dec 0x00D#12) := by decide

/-- `RST = 1`. -/
theorem test_decode_reset : decode false (.rst 0b1#1) = .ok .reset := by decide

/-- `ECMD = 1dddddddd`, channel idle. -/
theorem test_decode_epush : decode true (.ecmd 0b100111100#9) = .ok (.epush 0x3C#8) := by decide

/-- `ECMD = 0xxxxxxxx`, channel idle. -/
theorem test_decode_eidle : decode true (.ecmd 0b000000001#9) = .ok (.eidle 0x01#8) := by decide

/-- Any `ECMD`, channel busy. -/
theorem test_decode_eshift : decode false (.ecmd 0b000000000#9) = .ok (.eshift 0x000#9) ∧
    decode false (.ecmd 0b100111100#9) = .ok (.eshift 0x13C#9) := by decide

/-- `DCMD = 00x`. -/
theorem test_decode_didle : decode true (.dcmd 0b000#3) = .ok (.didle false) := by decide

/-- `DCMD = 10b`. -/
theorem test_decode_dbit : decode true (.dcmd 0b100#3) = .ok (.dbit false) := by decide

/-- `DCMD = 11b`. -/
theorem test_decode_dbitl : decode true (.dcmd 0b111#3) = .ok (.dbitl true) := by decide

/-- `DCMD = 01x`. -/
theorem test_decode_dend : decode true (.dcmd 0b010#3) = .ok (.dend false) := by decide

/-- Table words, by their number of bits (log 13). -/
theorem test_decodeTableWord : decodeTableWord 9 0x1FF = some (.epush 0xFF#8) ∧ decodeTableWord 16 0x100 = some (.epush 0x00#8) ∧
    decodeTableWord 12 0xE6F = some (.dec 0xE6F#12) ∧ decodeTableWord 16 0xE6F = some (.dec 0xE6F#12) ∧
    decodeTableWord 8 0xA5 = some (.enc 0xA5#8) ∧ decodeTableWord 8 1 = some .reset ∧ decodeTableWord 8 5 = some (.dbit true) ∧
    decodeTableWord 3 3 = some (.dend true) ∧ decodeTableWord 16 0xFFFF = none := by decide

/-! ### One step -/

/-- A next state, or none. -/
def after : Host.Outcome State Fault Refusal → Option State
  | .next t => some t
  | .fault _ => none
  | .refused _ => none

/-- The state the vectors write `(enc_sr, enc_cnt, dec_sr, dec_cnt)`. -/
def st (sr : Codeword) (cnt : Fin 13) (dsr : BitVec 11) (dcnt : Fin 12) : State :=
  { State.reset with encSr := sr, encCnt := cnt, decSr := dsr, decCnt := dcnt }

/-- The four registers. -/
def regs (s : State) : Codeword × Fin 13 × BitVec 11 × Fin 12 := (s.encSr, s.encCnt, s.decSr, s.decCnt)

/-- One clock cycle with the words of a row of V11. -/
def cycle (s : State) (rst : Bool) (e : BitVec 9) (w : BitVec 3) : Option State :=
  after (step { s with inputs := [.clock rst e w] })

/-- S2: `ENC(0xFF) = 0xEEF`. -/
theorem test_enc_ff : ((after (exec (.enc 0xFF#8) State.reset)).map (·.codeOut)) = some (some 0xEEF#12) := by decide

/-- V1: `ENC(0x69) = 0x5C9`; a byte that reads differently backwards. -/
theorem test_enc_69 : ((after (exec (.enc 0x69#8) State.reset)).map (·.codeOut)) = some (some 0x5C9#12) := by decide

/-- S3: position 5 of the codeword of `0xFF` inverted. -/
theorem test_dec_corrects : ((after (exec (.dec 0xE6F#12) State.reset)).map (·.decoderOut)) =
    some (some ⟨0xFF#8, 5#4, 0b01#2⟩) := by decide

/-- V4: `0x555`, syndrome 14, uncorrectable: the received data bits. -/
theorem test_dec_uncorrectable : ((after (exec (.dec 0x555#12) State.reset)).map (·.decoderOut)) =
    some (some ⟨0x25#8, 14#4, 0b10#2⟩) := by decide

/-- V11 row 1: `EPUSH 0xFF`. -/
theorem test_epush : (cycle (st 0x000#12 0 0#11 0) false 0x1FF#9 0b000#3).map (fun t => (regs t, t.encInReady, t.encIn, t.encOut)) =
    some ((0xEEF#12, 12, 0x000#11, 0), true, some 0xFF#8, none) := by decide

/-- V11 row 3: `EIDLE` with data bits that are ignored. -/
theorem test_eidle : (cycle (st 0x000#12 0 0#11 0) false 0x0A5#9 0b001#3).map (fun t => (regs t, t.encInReady, t.encIn, t.encOut)) =
    some ((0x000#12, 0, 0x000#11, 0), true, none, none) := by decide

/-- V11 row 5: `ESHIFT` with an offer that is not accepted. -/
theorem test_eshift_offer_ignored : (cycle (st 0xDDE#12 11 0#11 0) false 0x1A5#9 0b000#3).map
    (fun t => (regs t, t.encInReady, t.encIn, t.encOut)) =
    some ((0xBBC#12, 10, 0x000#11, 0), false, none, some true) := by decide

/-- V11 row 7: `ESHIFT`, the last bit, 0. -/
theorem test_eshift_last : (cycle (st 0x000#12 1 0#11 0) false 0x000#9 0b000#3).map (fun t => (regs t, t.encOut)) =
    some ((0x000#12, 0, 0x000#11, 0), some false) := by decide

/-- V11 row 18: `DIDLE` keeps a partial chunk. -/
theorem test_didle : (cycle (st 0x000#12 0 0x019#11 5) false 0x000#9 0b001#3).map (fun t => (regs t, t.decIn, t.boundary)) =
    some ((0x000#12, 0, 0x019#11, 5), none, false) := by decide

/-- V11 row 9: `DBIT`, a middle bit. -/
theorem test_dbit_middle : (cycle (st 0x000#12 0 0x019#11 5) false 0x000#9 0b100#3).map (fun t => (regs t, t.decOut)) =
    some ((0x000#12, 0, 0x032#11, 6), none) := by decide

/-- V11 row 12: `DBIT`, the twelfth bit of an uncorrectable block. -/
theorem test_dbit_twelfth : (cycle (st 0x000#12 0 0x006#11 11) false 0x000#9 0b101#3).map (fun t => (regs t, t.decOut)) =
    some ((0x000#12, 0, 0x000#11, 0), some ⟨0x0D#8, 15#4, 0b10#2⟩) := by decide

/-- V11 row 13: `DBITL`, the twelfth bit. -/
theorem test_dbitl_twelfth : (cycle (st 0x000#12 0 0x777#11 11) false 0x000#9 0b111#3).map
    (fun t => (regs t, t.decOut, t.boundary)) =
    some ((0x000#12, 0, 0x000#11, 0), some ⟨0xFF#8, 0#4, 0b00#2⟩, true) := by decide

/-- V11 row 14: `DBITL`, a short chunk, dropped. -/
theorem test_dbitl_short : (cycle (st 0x000#12 0 0x00C#11 4) false 0x000#9 0b110#3).map (fun t => (regs t, t.decOut)) =
    some ((0x000#12, 0, 0x000#11, 0), none) := by decide

/-- V11 row 16: `DEND` with a partial chunk. -/
theorem test_dend : (cycle (st 0x000#12 0 0x019#11 5) false 0x000#9 0b010#3).map (fun t => (regs t, t.decIn, t.decOut, t.boundary)) =
    some ((0x000#12, 0, 0x000#11, 0), none, none, true) := by decide

/-- V11 row 19: `EPUSH` and `DBIT` in one cycle. -/
theorem test_both_channels : (cycle (st 0x000#12 0 0x019#11 5) false 0x13C#9 0b101#3).map regs =
    some (0x46C#12, 12, 0x033#11, 6) := by decide

/-- V11 row 20: `ESHIFT` and a twelfth `DBIT` in one cycle. -/
theorem test_both_outputs : (cycle (st 0x800#12 1 0x236#11 11) false 0x1C3#9 0b100#3).map (fun t => (regs t, t.encIn, t.encOut, t.decOut)) =
    some ((0x000#12, 0, 0x000#11, 0), none, some true, some ⟨0x3C#8, 0#4, 0b00#2⟩) := by decide

/-- V11 row 21: `RESET` in the middle of both channels' work. -/
theorem test_reset : (cycle (st 0xBBC#12 10 0x019#11 5) true 0x1FF#9 0b111#3).map
    (fun t => (regs t, [t.encInReady, t.encIn.isSome, t.encOut.isSome, t.decIn.isSome, t.decOut.isSome])) =
    some ((0x000#12, 0, 0x000#11, 0), [false, false, false, false, false]) := by decide

/-- V11 row 22: `RESET` suppresses a twelfth bit's output. -/
theorem test_reset_suppresses : (cycle (st 0x000#12 0 0x737#11 11) true 0x000#9 0b101#3).map (fun t => (regs t, t.decOut)) =
    some ((0x000#12, 0, 0x000#11, 0), none) := by decide

/-- A table word placed at reset runs in the very next step: `EPUSH 0xFF` (V11 row 1). -/
theorem test_withFetchWord : (after (step (State.reset.withFetchWord 9 0x1FF))).map regs = some (0xEEF#12, 12, 0x000#11, 0) := by
  decide

/-! ### The stream functions (V9, V10) -/

/-- V9: `ENCALL([0x48, 0x69])`, and `PACK` of it. -/
theorem test_encodeAll_pack : pack (encodeAll [0x48#8, 0x69#8]) = [0x19#8, 0x85#8, 0xC9#8] := by decide

/-- V9: padding at the end, `PACK(ENCALL([0xFF])) = EE F0`. -/
theorem test_pack_pads : pack (encodeAll [0xFF#8]) = [0xEE#8, 0xF0#8] := by decide

/-- V10: thirteen ones give one pair; one bit is dropped. -/
theorem test_decodeAllX_drops : decodeAllX (List.replicate 13 true) = [(0xFE#8, 12#4)] := by decide

/-! ### Witnesses: for each statement with hypotheses, states and operands that meet them, at the boundaries of their ranges -/

/-- A state to step from: after reset, with one cycle's words to come. -/
def ready (s : State) (rst : Bool) (e : BitVec 9) (w : BitVec 3) : State := { s with inputs := [.clock rst e w] }

theorem witness_DecodeReadsBackEveryOperation :
    ((Instr.epush 0xFF#8).wf = true ∧ (Instr.epush 0xFF#8).needsIdle = some true) ∧
    ((Instr.eshift 0x1FF#9).wf = true ∧ (Instr.eshift 0x1FF#9).needsIdle = some false) ∧
    ((Instr.dend true).wf = true ∧ (Instr.dend true).needsIdle = none) := by decide

/-- One word for each of the two clauses. -/
theorem witness_EveryPortWordSelectsOneOperation :
    decode true (.rst 0#1) = .error .rstLow ∧ decode false (.ecmd 0x1FF#9) = .ok (.eshift 0x1FF#9) := by decide

/-- One state for each clause. -/
theorem witness_StepRunsDecodedOperations :
    (∃ s : State, s.inputs = .encoder 0xFF#8 :: []) ∧ (∃ s : State, s.inputs = .decoder 0xFFF#12 :: []) ∧
    (∃ s : State, s.inputs = .clock true 0x1FF#9 7#3 :: []) ∧
    (∃ s : State, s.inputs = .clock false 0x1FF#9 7#3 :: [] ∧ decode (s.encCnt == 0) (.ecmd 0x1FF#9) = .ok (.epush 0xFF#8) ∧
      decode (s.encCnt == 0) (.dcmd 7#3) = .ok (.dbitl true)) ∧
    (∃ s : State, s.inputs = .clock false 0x000#9 0#3 :: [] ∧ decode (s.encCnt == 0) (.ecmd 0x000#9) = .ok (.eshift 0x000#9) ∧
      decode (s.encCnt == 0) (.dcmd 0#3) = .ok (.didle false)) ∧
    (∃ s : State, s.inputs = []) :=
  ⟨⟨{ State.reset with inputs := [.encoder 0xFF#8] }, rfl⟩, ⟨{ State.reset with inputs := [.decoder 0xFFF#12] }, rfl⟩,
    ⟨ready State.reset true 0x1FF#9 7#3, rfl⟩, ⟨ready State.reset false 0x1FF#9 7#3, by decide⟩,
    ⟨ready (st 0x800#12 1 0#11 0) false 0x000#9 0#3, by decide⟩, ⟨State.reset, rfl⟩⟩

/-- The least and the greatest position. -/
theorem witness_CheckGroupsSpellPositions : (1 : Fin 13) ≠ 0 ∧ (12 : Fin 13) ≠ 0 ∧ 1 ∈ checkGroup 1 ∧ 12 ∈ checkGroup 8 ∧
    13 ∉ checkGroup 8 := by decide

/-- V1's parities of `0xA5`: 1, 1, 0, 0. -/
theorem witness_CodewordOnTheBus : ∃ (d : Byte) (P1 P2 P4 P8 : Bit),
    P1 = (d.getLsbD 7 ^^ d.getLsbD 6 ^^ d.getLsbD 4 ^^ d.getLsbD 3 ^^ d.getLsbD 1) ∧
    P2 = (d.getLsbD 7 ^^ d.getLsbD 5 ^^ d.getLsbD 4 ^^ d.getLsbD 2 ^^ d.getLsbD 1) ∧
    P4 = (d.getLsbD 6 ^^ d.getLsbD 5 ^^ d.getLsbD 4 ^^ d.getLsbD 0) ∧
    P8 = (d.getLsbD 3 ^^ d.getLsbD 2 ^^ d.getLsbD 1 ^^ d.getLsbD 0) :=
  ⟨0xA5#8, true, true, false, false, by decide⟩

theorem witness_CheckBitsAreMaskParities :
    ∃ par : Codeword → Bit, ∀ c, par c = (List.range 12).foldl (fun a i => a ^^ c.getLsbD i) false :=
  ⟨_, fun _ => rfl⟩

/-- Both ends of each class of syndromes. -/
theorem witness_StatusClassesAndGates : (0#4).toNat = 0 ∧ 1 ≤ (1#4).toNat ∧ (12#4).toNat ≤ 12 ∧ 13 ≤ (13#4).toNat ∧
    13 ≤ (15#4).toNat := by decide

/-- The first and the last data bit. -/
theorem witness_EncCompletesWithCodeword : (0 < 8 ∧ [3, 5, 6, 7, 9, 10, 11, 12].getD 0 0 = 3) ∧
    (7 < 8 ∧ [3, 5, 6, 7, 9, 10, 11, 12].getD 7 0 = 12) := by decide

theorem witness_CodewordsHaveSyndromeZero : 1 ∈ [1, 2, 4, 8] ∧ 8 ∈ [1, 2, 4, 8] := by decide

theorem witness_EncIsLinearWithDistanceThree : (0x00#8 : Byte) ≠ 0xFF#8 := by decide

/-- Both clauses of step 2: a syndrome that names a position, at both ends of the range, and one that names none (V4). -/
theorem witness_DecCompletesInFourSteps : (syndrome 0x911#12).toNat = 1 ∧ (syndrome 0xFFF#12).toNat = 12 ∧
    (syndrome 0x00D#12).toNat = 15 ∧ (syndrome 0x000#12).toNat = 0 := by decide

theorem witness_SingleErrorsAreCorrected : (1 ≤ 1 ∧ 1 ≤ 12) ∧ (1 ≤ 12 ∧ 12 ≤ 12) := by decide

/-- A miscorrected pair and a flagged pair at the ends of the range (V7). -/
theorem witness_DoubleErrorsAreNeverRepaired :
    (1 ≤ 1 ∧ 1 < 2 ∧ 2 ≤ 12 ∧ (syndrome (flipPos (flipPos (encodeByte 0x00#8) 1) 2)).toNat ≤ 12) ∧
    (1 ≤ 3 ∧ 3 < 12 ∧ 12 ≤ 12 ∧ 13 ≤ (syndrome (flipPos (flipPos (encodeByte 0x01#8) 3) 12)).toNat) := by decide

/-- Blocks of classes 0, 12, 13 and 15 (V4, V7). -/
theorem witness_SyndromeClassesPartitionBlocks : (syndrome 0x000#12).toNat ≤ 12 ∧ (syndrome 0xFFF#12).toNat ≤ 12 ∧
    13 ≤ (syndrome 0x6EE#12).toNat ∧ 13 ≤ (syndrome 0x00D#12).toNat := by decide

theorem witness_DecGateForm : (0 < 8 ∧ 3 = [3, 5, 6, 7, 9, 10, 11, 12].getD 0 0) ∧
    (7 < 8 ∧ 12 = [3, 5, 6, 7, 9, 10, 11, 12].getD 7 0) := by decide

/-- The first bit of the first codeword and the last bit of the last. -/
theorem witness_EncodedStreamLayout : ([0x48#8, 0x69#8] : List Byte)[0]? = some 0x48#8 ∧ 1 ≤ 1 ∧
    ([0x48#8, 0x69#8] : List Byte)[1]? = some 0x69#8 ∧ 12 ≤ 12 := by decide

/-- The second whole chunk of 25 bits. -/
theorem witness_DecodedStreamLayout : ∃ (x : List Bit) (k : Nat) (r : Codeword), k = 1 ∧ x.length = 25 ∧ k < x.length / 12 ∧
    ∀ p, 1 ≤ p → p ≤ 12 → x[12 * k + p - 1]? = some (pos r p) := by
  refine ⟨List.replicate 25 true, 1, 0xFFF#12, rfl, rfl, by decide, ?_⟩
  intro p h1 h2
  have : p < 13 := by omega
  interval_cases p <;> decide

/-- No error, and an error at the last position. -/
theorem witness_StreamSurvivesOneErrorPerBlock : ∀ x ∈ ([(0xA5#8, 0), (0x5A#8, 12)] : List (Byte × Nat)), x.2 ≤ 12 := by decide

theorem witness_TruncationLosesTheLastByte : (1 ≤ 1 ∧ 1 ≤ 12) ∧ (1 ≤ 12 ∧ 12 ≤ 12) := by decide

/-- Two streams that differ outside block 1 only. -/
theorem witness_ErrorsStayInTheirBlock : ∃ (x y : List Bit) (k : Nat), x ≠ y ∧ 12 * k + 12 ≤ x.length ∧ 12 * k + 12 ≤ y.length ∧
    ∀ i < 12, x[12 * k + i]? = y[12 * k + i]? :=
  ⟨List.replicate 24 true, false :: List.replicate 23 true, 1, by decide⟩

/-- Padding that completes a block, and padding that does not. -/
theorem witness_PaddingCanCompleteASpuriousBlock :
    (∃ (x : List Bit) (pad : Nat), pad < 8 ∧ (x.length + pad) % 8 = 0 ∧ 12 ≤ x.length % 12 + pad) ∧
    (∃ (x : List Bit) (pad : Nat), pad < 8 ∧ (x.length + pad) % 8 = 0 ∧ ¬ 12 ≤ x.length % 12 + pad) :=
  ⟨⟨List.replicate 11 true, 5, by decide⟩, ⟨List.replicate 12 true, 4, by decide⟩⟩

/-- The first bit of the first byte and the last bit of the last, where `PACK` has padded (V9). -/
theorem witness_UnpackUndoesPack : ([0xEE#8, 0xF0#8] : List Byte)[0]? = some 0xEE#8 ∧ 0 < 8 ∧
    (pack (encodeAll [0xFF#8]))[1]? = some 0xF0#8 ∧ 7 < 8 := by decide

theorem witness_EpushLoadsTheCodeword : State.reset.resetDone = true ∧ State.reset.encCnt = 0 := by decide

theorem witness_EidleChangesNoRegister : (st 0x000#12 0 0x019#11 5).resetDone = true ∧ (st 0x000#12 0 0x019#11 5).encCnt = 0 := by
  decide

/-- The first shift of a codeword and the last. -/
theorem witness_EshiftPutsOutOneBit :
    ((st 0xEEF#12 12 0#11 0).resetDone = true ∧ (st 0xEEF#12 12 0#11 0).encCnt ≠ 0) ∧
    ((st 0x800#12 1 0#11 0).resetDone = true ∧ (st 0x800#12 1 0#11 0).encCnt ≠ 0) := by decide

/-- One state for each clause. -/
theorem witness_EncodeWordsFollowTheCounter : (st 0x800#12 1 0#11 0).encCnt ≠ 0 ∧ State.reset.encCnt = 0 := by decide

theorem witness_DidleKeepsTheChunk : (st 0x000#12 0 0x019#11 5).resetDone = true := by decide

/-- The twelfth bit, the eleventh and the first. -/
theorem witness_DbitTakesOneBit :
    ((st 0#12 0 0x737#11 11).resetDone = true ∧ (st 0#12 0 0x737#11 11).decCnt = 11) ∧
    ((st 0#12 0 0x39B#11 10).resetDone = true ∧ (st 0#12 0 0x39B#11 10).decCnt ≠ 11) ∧
    (State.reset.resetDone = true ∧ State.reset.decCnt ≠ 11) := by decide

/-- The twelfth bit, the eleventh and the first. -/
theorem witness_DbitlTakesTheBitThenCuts :
    ((st 0#12 0 0x777#11 11).resetDone = true ∧ (st 0#12 0 0x777#11 11).decCnt = 11) ∧
    ((st 0#12 0 0x39B#11 10).resetDone = true ∧ (st 0#12 0 0x39B#11 10).decCnt ≠ 11) ∧
    (State.reset.resetDone = true ∧ State.reset.decCnt ≠ 11) := by decide

theorem witness_DendDiscardsTheChunk : (st 0#12 0 0x019#11 5).resetDone = true := by decide

/-- A running cycle and a cycle with `rst = 1`. -/
theorem witness_CycleTransfersFollowThePortEquations :
    ((ready (st 0x800#12 1 0x236#11 11) false 0x1C3#9 4#3).resetDone = true ∧
      (ready (st 0x800#12 1 0x236#11 11) false 0x1C3#9 4#3).inputs = .clock false 0x1C3#9 4#3 :: []) ∧
    ((ready State.reset true 0x1FF#9 7#3).resetDone = true ∧
      (ready State.reset true 0x1FF#9 7#3).inputs = .clock true 0x1FF#9 7#3 :: []) := by decide

/-- A cycle that completes a block, and a cycle that accepts a byte. -/
theorem witness_ClockedStepMatchesTheCollation :
    ((ready (st 0x800#12 1 0x236#11 11) false 0x1C3#9 4#3).resetDone = true ∧
      (ready (st 0x800#12 1 0x236#11 11) false 0x1C3#9 4#3).inputs = .clock false 0x1C3#9 4#3 :: []) ∧
    ((ready State.reset false 0x1FF#9 2#3).resetDone = true ∧
      (ready State.reset false 0x1FF#9 2#3).inputs = .clock false 0x1FF#9 2#3 :: []) := by decide

/-- One operation on each channel, from two states that differ on the other channel. -/
theorem witness_ChannelsDoNotInteract :
    (∃ t t' : State, (Instr.eshift 0x000#9).format = .ecmd ∧ exec (.eshift 0x000#9) (st 0x800#12 1 0#11 0) = .next t ∧
      exec (.eshift 0x000#9) (st 0x800#12 1 0x019#11 5) = .next t' ∧
      (st 0x800#12 1 0x019#11 5).encSr = (st 0x800#12 1 0#11 0).encSr ∧
      (st 0x800#12 1 0x019#11 5).encCnt = (st 0x800#12 1 0#11 0).encCnt) ∧
    (∃ t t' : State, (Instr.dbit true).format = .dcmd ∧ exec (.dbit true) (st 0#12 0 0x737#11 11) = .next t ∧
      exec (.dbit true) (st 0xEEF#12 12 0x737#11 11) = .next t' ∧
      (st 0xEEF#12 12 0x737#11 11).decSr = (st 0#12 0 0x737#11 11).decSr ∧
      (st 0xEEF#12 12 0x737#11 11).decCnt = (st 0#12 0 0x737#11 11).decCnt) :=
  ⟨⟨_, _, rfl, rfl, rfl, rfl, rfl⟩, ⟨_, _, rfl, rfl, rfl, rfl, rfl⟩⟩

/-- An idle channel with a byte offered, and none of the inputs a reset. -/
theorem witness_EncodeChannelRefinesEncodeAll :
    (ready State.reset false 0x1FF#9 0#3).resetDone = true ∧ (ready State.reset false 0x1FF#9 0#3).encCnt = 0 ∧
    ∀ p ∈ (ready State.reset false 0x1FF#9 0#3).inputs, p.isReset = false := by decide

/-- An idle channel, a byte offered, and another offer in the next cycle. -/
theorem witness_EncodeChannelRefinesEncodeAll_twelve : ∃ (s : State) (d : Byte) (w : BitVec 3) (rest : List PortInput),
    s.resetDone = true ∧ s.encCnt = 0 ∧ s.inputs = .clock false (1#1 ++ d) w :: rest ∧ rest ≠ [] ∧
    ∀ p ∈ rest, p.isRunning = true :=
  ⟨{ State.reset with inputs := [.clock false (1#1 ++ 0xFF#8) 5#3, .clock false 0x1A5#9 2#3] }, 0xFF#8, 5#3,
    [.clock false 0x1A5#9 2#3], by decide⟩

/-- An empty chunk, and inputs with a bit, a boundary and a reset. -/
theorem witness_DecodeChannelRefinesDecodeAllX : ∃ s : State, s.resetDone = true ∧ s.decCnt = 0 ∧
    s.inputs = [.clock false 0#9 5#3, .clock false 0#9 2#3, .clock true 0#9 0#3] :=
  ⟨{ State.reset with inputs := [.clock false 0#9 5#3, .clock false 0#9 2#3, .clock true 0#9 0#3] }, rfl, rfl, rfl⟩

/-- No inversion in the first codeword, the last position in every other. -/
theorem witness_LoopBackReturnsEveryByte : ∃ p : Nat → Nat, (∀ k, p k ≤ 12) ∧ p 0 = 0 ∧ p 1 = 12 :=
  ⟨fun k => if k = 0 then 0 else 12, fun k => by dsimp only; split <;> omega, rfl, rfl⟩

/-- Both clauses of the loop-back statement about the counter are met in a run: an idle cycle and a busy one. -/
theorem witness_LoopBackReturnsEveryByte_clauses :
    (loopRun (fun _ => 0x1FF#9) (fun _ => 0) 0).state.encCnt = 0 ∧
    (loopRun (fun _ => 0x1FF#9) (fun _ => 0) 1).state.encCnt ≠ 0 := by decide

/-- Both directions of the output clause: a twelfth bit in the current stream, and a bit that is none. -/
theorem witness_DecodeChannelRefinesDecodeAllX_output :
    (observe 1 (ready (st 0#12 0 0x737#11 11) false 0#9 5#3)).map (·.decOut.isSome) = [true] ∧
    (observe 1 (ready (st 0#12 0 0x39B#11 10) false 0#9 5#3)).map (·.decOut.isSome) = [false] := by decide

/-- A cycle of the loop-back that accepts a byte. -/
theorem witness_LoopBackReturnsEveryByte_epush :
    (loopRun (fun _ => 0x1FF#9) (fun _ => 0) 0).state.encCnt = 0 ∧ (0x1FF#9).getLsbD 8 = true := by decide

theorem witness_NothingIsEverRefusedAfterReset : State.reset.resetDone = true := by decide

/-- Two states with the same counters and control bits, whose registers and data bits differ. -/
theorem witness_ControlNeverDependsOnData : ∃ t t' : State,
    (ready (st 0xEEF#12 12 0x737#11 11) false 0x1FF#9 5#3).inputs = .clock false 0x1FF#9 5#3 :: [] ∧
    (ready (st 0x111#12 12 0x006#11 11) false 0x100#9 4#3).inputs = .clock false 0x100#9 4#3 :: [] ∧
    (0x1FF#9).getLsbD 8 = (0x100#9).getLsbD 8 ∧ (5#3).getLsbD 2 = (4#3).getLsbD 2 ∧ (5#3).getLsbD 1 = (4#3).getLsbD 1 ∧
    (ready (st 0xEEF#12 12 0x737#11 11) false 0x1FF#9 5#3).encCnt = (ready (st 0x111#12 12 0x006#11 11) false 0x100#9 4#3).encCnt ∧
    (ready (st 0xEEF#12 12 0x737#11 11) false 0x1FF#9 5#3).decCnt = (ready (st 0x111#12 12 0x006#11 11) false 0x100#9 4#3).decCnt ∧
    step (ready (st 0xEEF#12 12 0x737#11 11) false 0x1FF#9 5#3) = .next t ∧
    step (ready (st 0x111#12 12 0x006#11 11) false 0x100#9 4#3) = .next t' :=
  ⟨_, _, rfl, rfl, rfl, rfl, rfl, rfl, rfl, rfl, rfl⟩

theorem witness_ResetClearsBothChannels :
    (ready (st 0xBBC#12 10 0x019#11 5) true 0x1FF#9 7#3).inputs = .clock true 0x1FF#9 7#3 :: [] := by decide

/-- A machine that has never been reset, and an operation of each channel. -/
theorem witness_NothingClockedRunsBeforeTheFirstReset :
    ({ st 0xBBC#12 10 0x019#11 5 with resetDone := false } : State).resetDone = false ∧
    (Instr.epush 0xFF#8).format = .ecmd ∧ (Instr.dend true).format = .dcmd := by decide

/-- A state in the middle of both channels' work that has the invariants, and steps. -/
theorem witness_StepKeepsTheRegisterInvariants : ∃ t : State, (ready (st 0xBBC#12 10 0x019#11 5) false 0x1FF#9 5#3).Inv ∧
    step (ready (st 0xBBC#12 10 0x019#11 5) false 0x1FF#9 5#3) = .next t :=
  ⟨_, by decide, rfl⟩

/-- A run that is over with an idle cycle, a `DEND`, a `RESET` with a byte and a bit on its ports, and a combinational input to come. -/
theorem witness_RunOverIsTheResetState : ∃ s : State, s.Inv ∧ s.RunOver ∧ s.resetDone = true ∧
    s.inputs = [.clock false 0x0A5#9 1#3, .clock false 0#9 2#3, .clock true 0x1FF#9 7#3, .encoder 0xFF#8] :=
  ⟨{ State.reset with inputs := [.clock false 0x0A5#9 1#3, .clock false 0#9 2#3, .clock true 0x1FF#9 7#3, .encoder 0xFF#8] },
    by decide⟩

/-- The empty list, and what keeps a run from being over: a byte, a bit or a last bit to come, bits owed, a chunk stored. -/
theorem test_runOver : State.reset.RunOver ∧ ¬ (ready State.reset false 0x100#9 0#3).RunOver ∧
    ¬ (ready State.reset false 0#9 4#3).RunOver ∧ ¬ (ready State.reset false 0#9 6#3).RunOver ∧
    ¬ (st 0x800#12 1 0#11 0).RunOver ∧ ¬ (st 0#12 0 0x00C#11 5).RunOver := by decide

/-- A channel that owes all twelve bits, offered another byte. -/
theorem witness_EncodeChannelAlwaysBecomesIdle : (ready (st 0xEEF#12 12 0#11 0) false 0x1FF#9 0#3).resetDone = true ∧
    ∀ p ∈ (ready (st 0xEEF#12 12 0#11 0) false 0x1FF#9 0#3).inputs, p.isRunning = true := by decide

/-- A run with a reset, presented while the encode channel is idle. -/
theorem witness_CarefulResetsAbandonNoCodeword : (ready State.reset true 0x000#9 0#3).resetDone = true ∧
    (ready State.reset true 0x000#9 0#3).encCnt = 0 ∧
    ∀ u ∈ ready State.reset true 0x000#9 0#3 :: (observe 1 (ready State.reset true 0x000#9 0#3)).dropLast, u.CarefulReset := by
  decide

/-- A stream of one whole block, and eleven zeros too few for another. -/
theorem witness_LongZeroPaddingDecodesAsZeroBytes : (List.replicate 12 true).length % 12 = 0 ∧ 11 < 12 := by decide

end Sys2Proof.Tests
end

section
/-! The invariants of the four registers (10_state.md R28): each channel's edge keeps its own, hence every step keeps both. -/

namespace Sys2Proof.Machine

/-! ### The encode channel: the low `12 - enc_cnt` bits of `enc_sr` (R28 b) -/

/-- The invariant speaks of the channel's two registers alone. -/
theorem encInv_congr {s t : State} (hsr : t.encSr = s.encSr) (hcnt : t.encCnt = s.encCnt) : t.EncInv ↔ s.EncInv := by
  simp only [State.EncInv, hsr, hcnt]

theorem encInv_of_encSr_zero {s : State} (h : s.encSr = 0#12) : s.EncInv := by
  intro i _ _
  simp [h]

/-- All twelve bits are owed, so no bit of the register has to be 0. -/
theorem acceptByte_encInv (s : State) (d : Byte) : (s.acceptByte d).EncInv := by
  intro i _ hi
  have hcnt : (s.acceptByte d).encCnt.val = 12 := rfl
  omega

theorem encodeIdle_encInv {s : State} (h : s.EncInv) : s.encodeIdle.EncInv := h

/-- The shift brings in a 0 at the bottom, and bit `j` of the free part becomes bit `j + 1` of one that is longer by one. -/
theorem shiftOut_encInv {s : State} (h : s.EncInv) : s.shiftOut.EncInv := by
  intro i hi hfree
  simp only [State.shiftOut, encEdge_encSr, encEdge_encCnt, countDown_val] at hfree ⊢
  cases i with
  | zero => rw [BitVec.getLsbD_concat_zero]
  | succ j =>
    have hj : s.encSr.getLsbD j = false := h j (by omega) (by omega)
    rw [BitVec.getLsbD_concat_succ, BitVec.getLsbD_setWidth, hj, Bool.and_false]

theorem encAfter_encInv {s : State} (e : BitVec 9) (h : s.EncInv) : (encAfter e s).EncInv := by
  unfold encAfter
  split
  · split
    · exact acceptByte_encInv s _
    · exact encodeIdle_encInv h
  · exact shiftOut_encInv h

/-- The bits of an idle channel's register are all free. -/
theorem encSr_zero_of_idle {s : State} (h : s.EncInv) (hcnt : s.encCnt = 0) : s.encSr = 0#12 := by
  apply BitVec.eq_of_getLsbD_eq
  intro i hi
  rw [h i hi (by simpa [hcnt] using hi), BitVec.getLsbD_zero]

/-! ### The decode channel: the bits of `dec_sr` from `dec_cnt` up (R28 d) -/

/-- The invariant speaks of the channel's two registers alone. -/
theorem decInv_congr {s t : State} (hsr : t.decSr = s.decSr) (hcnt : t.decCnt = s.decCnt) : t.DecInv ↔ s.DecInv := by
  simp only [State.DecInv, hsr, hcnt]

theorem decInv_of_decSr_zero {s : State} (h : s.decSr = 0#11) : s.DecInv := by
  intro i _ _
  simp [h]

theorem noBit_decInv {s : State} (h : s.DecInv) : s.noBit.DecInv := h

theorem applyBoundary_decInv (s : State) : s.applyBoundary.DecInv := decInv_of_decSr_zero rfl

/-- The twelfth bit empties the register; any other one moves bit `j` of the free part to bit `j + 1` while the counter goes up. -/
theorem takeBit_decInv {s : State} (b : Bit) (h : s.DecInv) : (s.takeBit b).DecInv := by
  obtain ⟨-, htake⟩ | ⟨hcnt, htake⟩ := takeBit_cases s b
  · exact decInv_of_decSr_zero (by rw [htake, decEdge_decSr])
  · intro i hi hfree
    simp only [htake, decEdge_decSr, decEdge_decCnt, countUp_val hcnt] at hfree ⊢
    cases i with
    | zero => omega
    | succ j =>
      have hj : s.decSr.getLsbD j = false := h j (by omega) (by omega)
      rw [BitVec.getLsbD_concat_succ, BitVec.getLsbD_setWidth, hj, Bool.and_false]

theorem decAfter_decInv {s : State} (w : BitVec 3) (h : s.DecInv) : (decAfter w s).DecInv := by
  unfold decAfter
  split
  · exact noBit_decInv h
  · exact takeBit_decInv _ h
  · exact applyBoundary_decInv _
  · exact applyBoundary_decInv _

/-- The bits of an empty chunk's register are all free. -/
theorem decSr_zero_of_empty {s : State} (h : s.DecInv) (hcnt : s.decCnt = 0) : s.decSr = 0#11 := by
  apply BitVec.eq_of_getLsbD_eq
  intro i hi
  rw [h i hi (by simp [hcnt]), BitVec.getLsbD_zero]

/-! ### Both channels -/

theorem inv_of_zero {s : State} (henc : s.encSr = 0#12) (hdec : s.decSr = 0#11) : s.Inv :=
  ⟨encInv_of_encSr_zero henc, decInv_of_decSr_zero hdec⟩

/-- A running edge keeps both invariants, because neither channel's edge touches the other's registers (R126). -/
theorem clockEdge_inv {s : State} (e : BitVec 9) (w : BitVec 3) (h : s.Inv) : (decAfter w (encAfter e s)).Inv := by
  obtain ⟨henc, hdec⟩ := h
  obtain ⟨hesr, hecnt, -⟩ := decAfter_frame w (encAfter e s)
  obtain ⟨hdsr, hdcnt, -⟩ := encAfter_frame e s
  exact ⟨(encInv_congr hesr hecnt).mpr (encAfter_encInv e henc),
    decAfter_decInv w ((decInv_congr hdsr hdcnt).mpr hdec)⟩

/-- Every step keeps the invariants: the combinational modules touch no register, `RESET` clears both shift registers, and a
running cycle is `clockEdge_inv`. -/
theorem step_inv {s t : State} (h : s.Inv) (hs : step s = .next t) : t.Inv := by
  have hbegin : s.beginStep.Inv := h
  obtain ⟨d, -, rfl⟩ | ⟨c, -, rfl⟩ | ⟨e, w, -, rfl⟩ | ⟨e, w, -, -, rfl⟩ := step_next_cases hs
  · exact hbegin
  · exact hbegin
  · exact inv_of_zero (resetRegisters_encSr _) (resetRegisters_decSr _)
  · exact clockEdge_inv e w hbegin

/-- Settles O44, by the inversion of `step` and each channel's edge. -/
theorem stepKeepsTheRegisterInvariants : Obligations.StepKeepsTheRegisterInvariants :=
  fun _ _ h hs => step_inv h hs

/-- Settles O41, by the reset state's own fields. -/
theorem resetStateRegisters : Obligations.ResetStateRegisters :=
  ⟨rfl, rfl, rfl, rfl⟩

/-- Settles O45: both shift registers are 0 at reset. -/
theorem resetHasTheRegisterInvariants : Obligations.ResetHasTheRegisterInvariants :=
  inv_of_zero rfl rfl

end Sys2Proof.Machine
end

section
/-! The end of a run (70_reset_and_hazards.md R184): what each channel does where nothing is sent and nothing is owed or stored. -/

namespace Sys2Proof.Machine

/-- An idle encode channel that is offered no byte does nothing (R131). -/
theorem encAfter_of_not_offered {s : State} {e : BitVec 9} (hcnt : s.encCnt = 0) (he : ecmdValid e = false) :
    encAfter e s = s.encodeIdle := by
  simp [encAfter, encIdle_iff.mpr hcnt, he]

/-- A decode channel that is offered no bit does nothing or applies a boundary (R134, R137). -/
theorem decAfter_of_not_offered {w : BitVec 3} (s : State) (hw : dcmdValid w = false) :
    decAfter w s = s.noBit ∨ decAfter w s = s.noBit.applyBoundary := by
  unfold decAfter
  rw [hw]
  cases dcmdLast w
  · exact .inl rfl
  · exact .inr rfl

/-- No transfer of any kind took place in the latest step (R128). -/
def State.NoTransfer (s : State) : Prop := s.encIn = none ∧ s.encOut = none ∧ s.decIn = none ∧ s.decOut = none

/-- Nothing is owed and nothing is stored: both counters are 0 (R184). -/
def State.Quiet (s : State) : Prop := s.encCnt = 0 ∧ s.decCnt = 0

/-- A running edge that is offered no byte and no bit leaves both counters at 0, with no transfer. -/
theorem clockEdge_quiet {s : State} {e : BitVec 9} {w : BitVec 3} (h : s.Quiet) (he : ecmdValid e = false)
    (hw : dcmdValid w = false) : (decAfter w (encAfter e s)).Quiet ∧ (decAfter w (encAfter e s)).NoTransfer := by
  obtain ⟨henc, hdec⟩ := h
  rw [encAfter_of_not_offered henc he]
  obtain hafter | hafter := decAfter_of_not_offered s.encodeIdle hw <;> rw [hafter]
  · exact ⟨⟨henc, hdec⟩, rfl, rfl, rfl, rfl⟩
  · exact ⟨⟨henc, rfl⟩, rfl, rfl, rfl, rfl⟩

/-- A step that is sent nothing leaves both counters at 0, with no transfer. -/
theorem step_quiet {s t : State} (h : s.Quiet) (hsend : s.nextInput.sends = false) (hs : step s = .next t) :
    t.Quiet ∧ t.NoTransfer := by
  obtain ⟨d, -, rfl⟩ | ⟨c, -, rfl⟩ | ⟨e, w, -, rfl⟩ | ⟨e, w, -, hin, rfl⟩ := step_next_cases hs
  · exact ⟨h, rfl, rfl, rfl, rfl⟩
  · exact ⟨h, rfl, rfl, rfl, rfl⟩
  · exact ⟨⟨rfl, rfl⟩, rfl, rfl, rfl, rfl⟩
  · rw [hin, sends_clock_false] at hsend
    exact clockEdge_quiet h hsend.1 hsend.2

/-- After a RESET every step answers a next state, and the RESET stays performed (R160). -/
theorem step_of_resetDone {s : State} (h : s.resetDone = true) : ∃ t, step s = .next t ∧ t.resetDone = true := by
  obtain ⟨d, -, hs⟩ | ⟨c, -, hs⟩ | ⟨e, w, -, hs⟩ | ⟨e, w, -, hs⟩ := step_cases h
  · exact ⟨_, hs, h⟩
  · exact ⟨_, hs, h⟩
  · exact ⟨_, hs, rfl⟩
  · exact ⟨_, hs, by simpa using h⟩

/-- A run that is over stays over, with no transfer (R184). -/
theorem runOver_step {s t : State} (h : s.RunOver) (hs : step s = .next t) : t.RunOver ∧ t.NoTransfer := by
  obtain ⟨hin, hquiet⟩ := h
  obtain ⟨htquiet, hnone⟩ := step_quiet hquiet (nextInput_sends hin) hs
  have htin : ∀ p ∈ t.inputs, p.sends = false := fun p hp =>
    hin p (List.mem_of_mem_tail (step_inputs hs ▸ hp))
  exact ⟨⟨htin, htquiet⟩, hnone⟩

/-- Settles O46: the registers by the invariants at counters 0, the next step by `runOver_step` and `step_inv`. -/
theorem runOverIsTheResetState : Obligations.RunOverIsTheResetState := by
  intro s hinv hover hdone
  have ⟨_, henc, hdec⟩ := hover
  obtain ⟨t, hs, htdone⟩ := step_of_resetDone hdone
  obtain ⟨htover, hnone⟩ := runOver_step hover hs
  exact ⟨encSr_zero_of_idle hinv.1 henc, henc, decSr_zero_of_empty hinv.2 hdec, hdec,
    t, hs, step_inv hinv hs, htover, htdone, hnone⟩

end Sys2Proof.Machine
end

section
/-! Whole codewords in front of a stream (20_memory.md R43, R47, 42_codec_stream.md R121, R122): how many bytes a stream decodes to, and
what the bytes of an encoded stream decode to when anything follows it. -/

namespace Sys2Proof.Machine

/-- The syndrome of a codeword is 0 (R94): each parity position makes its check group even. -/
@[simp] theorem syndrome_encodeByte (b : Byte) : syndrome (encodeByte b) = 0#4 := by
  rw [syndrome_eq_zero_iff]
  obtain ⟨c1, c2, c4, c8⟩ := checkBit_eq (encodeByte b)
  obtain ⟨h0, h1, h2, h3, h4, h5, h6, h7⟩ := pos_encodeByte_data b
  obtain ⟨g1, g2, g4, g8⟩ := pos_encodeByte_parity b
  refine ⟨?_, ?_, ?_, ?_⟩
  · rw [c1, g1, h0, h1, h3, h4, h6]; grind
  · rw [c2, g2, h0, h2, h3, h5, h6]; grind
  · rw [c4, g4, h1, h2, h3, h7]; grind
  · rw [c8, g8, h4, h5, h6, h7]; grind

/-- A codeword decodes to its byte, clean (R106). -/
@[simp] theorem decodeBlock_encodeByte (b : Byte) : decodeBlock (encodeByte b) = (b, 0#4) := by
  simp [decodeBlock, corrected, extractByte_encodeByte]

@[simp] theorem decodeAllX_length (x : List Bit) : (decodeAllX x).length = x.length / 12 := by
  simp [decodeAllX]

@[simp] theorem decodeAll_length (x : List Bit) : (decodeAll x).length = x.length / 12 := by
  simp [decodeAll]

@[simp] theorem encodeAll_length (bytes : List Byte) : (encodeAll bytes).length = 12 * bytes.length := by
  induction bytes with
  | nil => rfl
  | cons b bs ih =>
    rw [encodeAll_cons, List.length_append, codewordBits_length, ih, List.length_cons]
    omega

/-- Encoded bytes in front decode to themselves, all clean, whatever follows them. -/
theorem decodeAllX_encodeAll_append (bytes : List Byte) (y : List Bit) :
    decodeAllX (encodeAll bytes ++ y) = bytes.map (·, 0#4) ++ decodeAllX y := by
  induction bytes with
  | nil => rfl
  | cons b bs ih =>
    rw [encodeAll_cons, List.append_assoc, decodeAllX_codeword, ih, decodeBlock_encodeByte, List.map_cons, List.cons_append]

/-- What is left after the encoded bytes is dropped when it is shorter than a block (R47). -/
theorem decodeAllX_encodeAll_append_short (bytes : List Byte) {y : List Bit} (h : y.length < 12) :
    decodeAllX (encodeAll bytes ++ y) = bytes.map (·, 0#4) := by
  rw [decodeAllX_encodeAll_append, decodeAllX_of_short h, List.append_nil]

/-! ### Runs of zero bits (R190) -/

/-- The codeword of the byte `0x00` is twelve zero bits (R91), so zero bits are encoded zero bytes. -/
theorem encodeAll_replicate_zero (k : Nat) : encodeAll (List.replicate k 0x00#8) = List.replicate (12 * k) false := by
  induction k with
  | zero => rfl
  | succ k ih =>
    have hzero : codewordBits (encodeByte 0x00#8) = List.replicate 12 false := by decide
    rw [List.replicate_succ, encodeAll_cons, ih, hzero, List.replicate_append_replicate, Nat.mul_succ, Nat.add_comm]

/-- Zero bits decode as clean zero bytes, one for every twelve; fewer than twelve more decode to nothing. -/
theorem decodeAllX_replicate_zero (k : Nat) {j : Nat} (hj : j < 12) :
    decodeAllX (List.replicate (12 * k + j) false) = List.replicate k (0x00#8, 0#4) := by
  have hshort : (List.replicate j false).length < 12 := by simpa using hj
  rw [← List.replicate_append_replicate, ← encodeAll_replicate_zero, decodeAllX_encodeAll_append_short _ hshort,
    List.map_replicate]

/-- Settles O49: the whole blocks decode by themselves, and the zero bits after them as zero bytes. -/
theorem longZeroPaddingDecodesAsZeroBytes : Obligations.LongZeroPaddingDecodesAsZeroBytes := by
  intro x k j hx hj
  rw [decodeAllX_append _ _ hx, decodeAllX_replicate_zero k hj]

end Sys2Proof.Machine
end

section
/-! The packed file (42_codec_stream.md R143, R144): unpacking what was packed gives the stream with its padding, and what that padding
does to decoding (20_memory.md R48). -/

namespace Sys2Proof.Machine

/-! ### The padding (R143) -/

theorem padBits_lt (n : Nat) : padBits n < 8 := Nat.mod_lt _ (by decide)

/-- Padding reaches a byte boundary. -/
theorem add_padBits_mod (n : Nat) : (n + padBits n) % 8 = 0 := by
  unfold padBits Config.dataBits
  omega

/-- There is one way to pad to a byte boundary with fewer than eight bits. -/
theorem eq_padBits {n pad : Nat} (hlt : pad < 8) (hmod : (n + pad) % 8 = 0) : pad = padBits n := by
  have hlt' := padBits_lt n
  have hmod' := add_padBits_mod n
  omega

@[simp] theorem padded_length (x : List Bit) : (padded x).length = x.length + padBits x.length := by
  simp [padded]

/-! ### Packing and unpacking -/

/-- The bits of the byte built from `f` are `f` at 0 to 7. -/
theorem byteBits_byteOf (f : Nat → Bit) : byteBits (byteOf f) = (List.range 8).map f :=
  List.map_congr_left fun _ hi => dataBit_byteOf f (List.mem_range.mp hi)

/-- Unpacking the first `n` bytes read from a stream gives its first `8 * n` bits. -/
theorem unpack_bytes_eq_take (l : List Bit) {n : Nat} (h : 8 * n ≤ l.length) :
    unpack ((List.range n).map fun m => byteOf fun i => l.getD (8 * m + i) false) = l.take (8 * n) := by
  induction n with
  | zero => rfl
  | succ n ih =>
    have hbyte : (List.range 8).map (fun i => l.getD (8 * n + i) false) = (l.drop (8 * n)).take 8 := by
      apply List.ext_getElem
      · rw [List.length_map, List.length_range, List.length_take, List.length_drop]
        omega
      · intro i hi _
        have hlt : 8 * n + i < l.length := by
          rw [List.length_map, List.length_range] at hi
          omega
        simp [hlt]
    have hih := ih (by omega)
    unfold unpack at hih ⊢
    rw [List.range_succ, List.map_append, List.flatMap_append, hih, List.map_singleton, List.flatMap_singleton,
      byteBits_byteOf, hbyte, Nat.mul_succ, List.take_add]

/-- Unpacking a packed stream gives the stream with its padding (R144). -/
theorem unpack_pack (x : List Bit) : unpack (pack x) = padded x := by
  have hlen : 8 * ((padded x).length / 8) = (padded x).length :=
    Nat.mul_div_cancel' (Nat.dvd_of_mod_eq_zero (by rw [padded_length, add_padBits_mod]))
  have htake := unpack_bytes_eq_take (padded x) hlen.le
  rw [hlen, List.take_length] at htake
  exact htake

/-! ### Decoding a packed file (R48) -/

/-- Settles O23: the padding is shorter than a block, so it is dropped. -/
theorem packedFileRoundTrip : Obligations.PackedFileRoundTrip := by
  intro bytes
  have hshort : (List.replicate (padBits (encodeAll bytes).length) false).length < 12 := by
    have := padBits_lt (encodeAll bytes).length
    rw [List.length_replicate]
    omega
  rw [unpack_pack, padded, decodeAll, decodeAllX_encodeAll_append_short bytes hshort, List.map_map]
  exact List.map_id bytes

/-- Settles O24: the file's length is the stream's and the padding's, and the quotients by 12 differ by the carry of the
remainder. -/
theorem paddingCanCompleteASpuriousBlock : Obligations.PaddingCanCompleteASpuriousBlock := by
  intro x pad hlt hmod
  rw [unpack_pack, decodeAll_length, decodeAll_length, padded_length, ← eq_padBits hlt hmod]
  split <;> omega

end Sys2Proof.Machine
end

section
/-! Which operation a port word selects (30_encoding.md R71, R72): decoding and encoding undo each other wherever the encode
counter allows the operation. -/

namespace Sys2Proof

/-- An operation's row allows the given state of the encode counter: it has no counter condition, or has this one (R72). -/
def Instr.AllowedWhen (i : Instr) (idle : Bool) : Prop := i.needsIdle = none ∨ i.needsIdle = some idle

/-- No operand is reserved (R73). -/
theorem Instr.wf_eq_true (i : Instr) : i.wf = true := by
  cases i <;> rfl

/-! ### The encode channel's words -/

/-- With the counter at 0 the valid bit of the word selects between `EPUSH` and `EIDLE`. -/
@[simp] theorem decodeEcmd_idle_ecmdWord (v : Bit) (d : Byte) :
    decodeEcmd true (ecmdWord v d) = if v then .epush d else .eidle d := by
  simp [decodeEcmd]

/-- With the counter elsewhere every word is an `ESHIFT`. -/
@[simp] theorem decodeEcmd_busy (w : BitVec 9) : decodeEcmd false w = .eshift w := rfl

theorem encode_decodeEcmd (idle : Bool) (w : BitVec 9) : encode (decodeEcmd idle w) = .ecmd w := by
  cases idle with
  | false => rfl
  | true =>
    obtain ⟨v, d, rfl⟩ : ∃ v d, ecmdWord v d = w := ⟨_, _, ecmdWord_eta w⟩
    cases v <;> simp [encode]

theorem decodeEcmd_allowed (idle : Bool) (w : BitVec 9) : (decodeEcmd idle w).AllowedWhen idle := by
  unfold decodeEcmd
  cases idle with
  | false => exact .inr rfl
  | true => cases ecmdValid w <;> exact .inr rfl

/-! ### The decode channel's words -/

/-- The two control bits of the word select among the four operations. -/
@[simp] theorem decodeDcmd_dcmdWord (b : Bit) :
    decodeDcmd (dcmdWord false false b) = .didle b ∧ decodeDcmd (dcmdWord true false b) = .dbit b ∧
    decodeDcmd (dcmdWord true true b) = .dbitl b ∧ decodeDcmd (dcmdWord false true b) = .dend b := by
  simp [decodeDcmd]

theorem encode_decodeDcmd (w : BitVec 3) : encode (decodeDcmd w) = .dcmd w := by
  obtain ⟨v, l, b, rfl⟩ : ∃ v l b, dcmdWord v l b = w := ⟨_, _, _, dcmdWord_eta w⟩
  cases v <;> cases l <;> simp [encode]

theorem decodeDcmd_allowed (w : BitVec 3) (idle : Bool) : (decodeDcmd w).AllowedWhen idle := by
  unfold decodeDcmd
  cases dcmdValid w <;> cases dcmdLast w <;> exact .inl rfl

/-! ### Both ways round -/

/-- Decoding an operation's word gives the operation, where its row allows the counter. -/
theorem decode_encode {i : Instr} {idle : Bool} (h : i.AllowedWhen idle) : decode idle (encode i) = .ok i := by
  cases i with
  | enc d => rfl
  | dec c => rfl
  | reset => rfl
  | epush d =>
    obtain rfl : true = idle := by simpa [Instr.AllowedWhen, Instr.needsIdle] using h
    simp [encode, decode]
  | eidle x =>
    obtain rfl : true = idle := by simpa [Instr.AllowedWhen, Instr.needsIdle] using h
    simp [encode, decode]
  | eshift x =>
    obtain rfl : false = idle := by simpa [Instr.AllowedWhen, Instr.needsIdle] using h
    rfl
  | didle x => simp [encode, decode]
  | dbit b => simp [encode, decode]
  | dbitl b => simp [encode, decode]
  | dend x => simp [encode, decode]

/-- Encoding a decoded operation gives its word back, and its row allows the counter. -/
theorem encode_of_decode {idle : Bool} {w : PortWord} {i : Instr} (h : decode idle w = .ok i) :
    encode i = w ∧ i.AllowedWhen idle := by
  cases w with
  | enc8 w => cases h; exact ⟨rfl, .inl rfl⟩
  | dec12 w => cases h; exact ⟨rfl, .inl rfl⟩
  | rst w =>
    rw [decode] at h
    split at h
    · next hw => cases h; exact ⟨congrArg PortWord.rst hw.symm, .inl rfl⟩
    · cases h
  | ecmd w => cases h; exact ⟨encode_decodeEcmd idle w, decodeEcmd_allowed idle w⟩
  | dcmd w => cases h; exact ⟨encode_decodeDcmd w, decodeDcmd_allowed w idle⟩

/-- A word decodes to the operation whose word it is and whose row allows the counter. -/
theorem decode_eq_ok_iff {idle : Bool} {w : PortWord} {i : Instr} :
    decode idle w = .ok i ↔ encode i = w ∧ i.AllowedWhen idle :=
  ⟨encode_of_decode, fun ⟨hw, h⟩ => hw ▸ decode_encode h⟩

/-- `RST = 0` is the only port word that decodes to nothing. -/
theorem decode_cases (idle : Bool) (w : PortWord) :
    (w = .rst 0#1 ∧ decode idle w = .error .rstLow) ∨ ∃ i, decode idle w = .ok i := by
  cases w with
  | enc8 w => exact .inr ⟨_, rfl⟩
  | dec12 w => exact .inr ⟨_, rfl⟩
  | rst w =>
    obtain rfl | rfl := BitVec.eq_zero_or_eq_one w
    · exact .inl ⟨rfl, rfl⟩
    · exact .inr ⟨.reset, rfl⟩
  | ecmd w => exact .inr ⟨_, rfl⟩
  | dcmd w => exact .inr ⟨_, rfl⟩

/-- Settles O2: the words that decode are those of `decode_cases`, and `decode_eq_ok_iff` says whose word each is. -/
theorem everyPortWordSelectsOneOperation : Obligations.EveryPortWordSelectsOneOperation := by
  intro idle w
  refine (decode_cases idle w).imp_right fun ⟨i, hi⟩ => ⟨i, hi, i.wf_eq_true, fun j => ?_⟩
  calc encode j = w ∧ j.AllowedWhen idle
    _ ↔ decode idle w = .ok j := decode_eq_ok_iff.symm
    _ ↔ j = i := by rw [hi, Except.ok.injEq, eq_comm]

/-- Settles O1, by `decode_encode`; every operation is well-formed, so that premise is not needed. -/
theorem decodeReadsBackEveryOperation : Obligations.DecodeReadsBackEveryOperation :=
  fun _ _ _ h => decode_encode h

/-- Settles O3: the words are literals, so the decoder computes each operation. -/
theorem sampleWordsDecode : Obligations.SampleWordsDecode := by
  unfold Obligations.SampleWordsDecode
  decide

end Sys2Proof
end

section
/-! The operations of one step (30_encoding.md R72, 42_codec_stream.md R138): `step` as `exec` of what the decoder selects, and the encode
channel's operations as the edge that their words give. -/

namespace Sys2Proof.Machine

/-! ### One step -/

theorem runOps_singleton (i : Instr) (s : State) : runOps [i] s = exec i s := by
  cases h : exec i s <;> simp only [runOps, h]

/-- The second operation starts from the state that the first one leaves. -/
theorem runOps_cons_of_next {i : Instr} {is : List Instr} {s t : State} (h : exec i s = .next t) :
    runOps (i :: is) s = runOps is t := by
  simp only [runOps, h]

/-- A refusal ends the step. -/
theorem runOps_cons_of_refused {i : Instr} {is : List Instr} {s : State} {r : Refusal} (h : exec i s = .refused r) :
    runOps (i :: is) s = .refused r := by
  simp only [runOps, h]

/-- The entry presented is the head of what the environment drives. -/
theorem step_of_inputs_cons {s : State} {p : PortInput} {rest : List PortInput} (h : s.inputs = p :: rest) :
    step s = runOps (selectedOps s.encIdle p) s.beginStep := by
  simp only [step, State.nextInput, h, List.headD_cons]

/-- With nothing left to drive, the step is that of a list of one idle cycle (log 3). -/
theorem step_of_inputs_nil {s : State} (h : s.inputs = []) : step s = step { s with inputs := [Config.idleInput] } := by
  have hbegin : s.beginStep = State.beginStep { s with inputs := [Config.idleInput] } := by
    simp only [State.beginStep, h, List.tail_nil, List.tail_cons]
  rw [step_of_inputs_cons (s := { s with inputs := [Config.idleInput] }) rfl, ← hbegin, step, State.nextInput, h]
  rfl

/-- Settles O4, by the entry presented and the operations it selects. -/
theorem stepRunsDecodedOperations : Obligations.StepRunsDecodedOperations := by
  refine ⟨fun s d _ h => ?_, fun s c _ h => ?_, fun s e w _ h => ?_, fun s e w _ i j h hi hj => ?_,
    fun s h => step_of_inputs_nil h⟩
  · exact (step_of_inputs_cons h).trans (runOps_singleton ..)
  · exact (step_of_inputs_cons h).trans (runOps_singleton ..)
  · exact (step_of_inputs_cons h).trans (runOps_singleton ..)
  · have hsel : selectedOps s.encIdle (.clock false e w) = [i, j] := by
      rw [← Except.ok.inj hi, ← Except.ok.inj hj]
      rfl
    rw [step_of_inputs_cons h, hsel]
    cases hx : exec i s.beginStep with
    | next t => exact (runOps_cons_of_next hx).trans (runOps_singleton j t)
    | fault r => cases r
    | refused r => exact runOps_cons_of_refused hx

/-! ### The encode channel's operations (log 9) -/

/-- `EPUSH` has the edge that its word gives. -/
theorem exec_epush_eq (d : Byte) (s : State) : exec (.epush d) s = s.whenReset (encAfter (ecmdWord true d) s) := by
  simp [exec, execEpush, encAfter]

/-- `EIDLE` has the edge that its word gives. -/
theorem exec_eidle_eq (x : BitVec 8) (s : State) : exec (.eidle x) s = s.whenReset (encAfter (ecmdWord false x) s) := by
  simp [exec, execEidle, encAfter]

/-- `ESHIFT` has the edge that its word gives. -/
theorem exec_eshift_eq (w : BitVec 9) (s : State) : exec (.eshift w) s = s.whenReset (encAfter w s) := rfl

/-- A busy channel shifts, whatever the word (R132). -/
theorem encAfter_of_busy {s : State} (h : s.encCnt ≠ 0) (e : BitVec 9) : encAfter e s = s.shiftOut :=
  if_neg (mt encIdle_iff.mp h)

/-- Settles O28: each meaning has the edge of its word, and on a busy channel every word has the same edge. -/
theorem encodeWordsFollowTheCounter : Obligations.EncodeWordsFollowTheCounter := by
  refine ⟨fun d x w s h => ⟨?_, ?_⟩, fun d s _ => ⟨?_, ?_⟩⟩
  · rw [exec_epush_eq, exec_eshift_eq, encAfter_of_busy h, encAfter_of_busy h]
  · rw [exec_eidle_eq, exec_eshift_eq, encAfter_of_busy h, encAfter_of_busy h]
  · exact (exec_epush_eq d s).symm
  · exact (exec_eidle_eq d s).symm

end Sys2Proof.Machine
end

section
/-! The code's bits, groups and classes on the buses (30_encoding.md R60 to R68). -/

namespace Sys2Proof.Machine

/-! ### The check groups (R63, R64) -/

theorem mem_checkGroup_four {p : Nat} : p ∈ checkGroup 4 ↔ 4 ≤ p ∧ p ≤ 7 ∨ p = 12 := by
  simp only [checkGroup, membership, List.mem_cons, List.not_mem_nil, or_false]
  omega

theorem mem_checkGroup_eight {p : Nat} : p ∈ checkGroup 8 ↔ 8 ≤ p ∧ p ≤ 12 := by
  simp only [checkGroup, membership, List.mem_cons, List.not_mem_nil, or_false]
  omega

/-- A check group holds positions of the codeword only. -/
theorem mem_checkGroup_bounds {p q : Nat} (hq : q ∈ parityPositions) (hp : p ∈ checkGroup q) : 1 ≤ p ∧ p ≤ 12 := by
  have hall : ∀ q ∈ parityPositions, ∀ p ∈ checkGroup q, 1 ≤ p ∧ p ≤ 12 := by decide
  exact hall q hq p hp

/-- The groups that contain a position are the powers of two of its number, so they add up to it. -/
theorem sum_checkGroups : ∀ p : Fin 13, p ≠ 0 →
    ([1, 2, 4, 8].filter fun q => decide (p.val ∈ checkGroup q)).sum = p.val := by
  decide

/-- The four groups cover the positions 1 to 12 and nothing else. -/
theorem mem_some_checkGroup_iff (p : Nat) :
    p ∈ checkGroup 1 ∨ p ∈ checkGroup 2 ∨ p ∈ checkGroup 4 ∨ p ∈ checkGroup 8 ↔ 1 ≤ p ∧ p ≤ 12 := by
  constructor
  · rintro (h | h | h | h) <;> exact mem_checkGroup_bounds (by decide) h
  · rintro ⟨h1, h2⟩
    interval_cases p <;> decide

/-- The groups of a position determine it, because they add up to it. -/
theorem eq_of_same_checkGroups {p p' : Fin 13} (hp : p ≠ 0) (hp' : p' ≠ 0)
    (h : ∀ q ∈ [1, 2, 4, 8], (p.val ∈ checkGroup q ↔ p'.val ∈ checkGroup q)) : p = p' := by
  have hgroups : ([1, 2, 4, 8].filter fun q => decide (p.val ∈ checkGroup q)) =
      [1, 2, 4, 8].filter fun q => decide (p'.val ∈ checkGroup q) :=
    List.filter_congr fun q hq => decide_eq_decide.mpr (h q hq)
  apply Fin.ext
  rw [← sum_checkGroups p hp, hgroups, sum_checkGroups p' hp']

/-- Position 12 is the only one in the groups of 4 and 8, so no position has the sum 13, 14 or 15. -/
theorem not_mem_checkGroup_of_four_eight {p : Nat} (h4 : p ∈ checkGroup 4) (h8 : p ∈ checkGroup 8) :
    p ∉ checkGroup 1 ∧ p ∉ checkGroup 2 := by
  rw [mem_checkGroup_four] at h4
  rw [mem_checkGroup_eight] at h8
  obtain rfl : p = 12 := by omega
  decide

/-- Settles O5: the finite tables are read off, the rest follows from the sum of a position's groups. -/
theorem checkGroupsSpellPositions : Obligations.CheckGroupsSpellPositions :=
  ⟨by decide, by decide, sum_checkGroups, mem_some_checkGroup_iff, fun _ _ => eq_of_same_checkGroups,
    fun _ => not_mem_checkGroup_of_four_eight⟩

/-! ### XOR over positions, and the masks (R63, R66) -/

theorem xorAt_congr {f g : Nat → Bit} {ps : List Nat} (h : ∀ p ∈ ps, f p = g p) : xorAt f ps = xorAt g ps :=
  List.foldl_ext _ _ _ fun a p hp => by rw [h p hp]

/-- `XOR` does not depend on the order of the positions. -/
theorem xorAt_perm (f : Nat → Bit) {ps qs : List Nat} (h : ps.Perm qs) : xorAt f ps = xorAt f qs :=
  h.foldl_eq' (fun _ _ _ _ _ => Bool.xor_right_comm ..) false

/-- Bits masked out do not count. -/
theorem xorAt_and (f m : Nat → Bit) (ps : List Nat) : xorAt (fun p => f p && m p) ps = xorAt f (ps.filter m) := by
  unfold xorAt
  rw [List.foldl_filter]
  congr
  funext a p
  cases hm : m p <;> simp [hm]

theorem pos_and (c m : Codeword) (p : Nat) : pos (c &&& m) p = (pos c p && pos m p) := by
  simp only [pos, BitVec.getLsbD_and]
  cases decide (1 ≤ p ∧ p ≤ 12) <;> simp

/-- A bus bit by the position it stands for (R62). -/
theorem getLsbD_eq_pos (c : Codeword) {i : Nat} (h : i < 12) : c.getLsbD i = pos c (12 - i) := by
  have hpos : 1 ≤ 12 - i ∧ 12 - i ≤ 12 := by omega
  simp only [pos, hpos, and_self, decide_true, Bool.true_and]
  congr 1
  omega

/-- `mask_q`: the positions of the check group of `q` set (R63). -/
def checkMask (q : Nat) : Codeword := blockOf fun p => decide (p ∈ checkGroup q)

/-- The masks as the literals of R63. -/
theorem checkMask_eq : checkMask 1 = 0xAAA#12 ∧ checkMask 2 = 0x666#12 ∧ checkMask 4 = 0x1E1#12 ∧ checkMask 8 = 0x01F#12 := by
  decide

/-- The parity of a block: the XOR of its twelve bus bits (R66). -/
def parity (c : Codeword) : Bit := (List.range 12).foldl (fun a i => a ^^ c.getLsbD i) false

/-- The bus bits are the positions from 12 down. -/
theorem parity_eq_xorAt (c : Codeword) : parity c = xorAt (pos c) ((List.range' 1 12).reverse) := rfl

/-- `s_q` is the parity of `code & mask_q`: the mask leaves the check group of `q`, and the order of an XOR is immaterial. -/
theorem checkBit_eq_parity (r : Codeword) {q : Nat} (hq : q ∈ parityPositions) :
    checkBit r q = parity (r &&& checkMask q) := by
  have hgroup : ∀ q ∈ parityPositions,
      (checkGroup q).Perm ((List.range' 1 12).reverse.filter fun p => decide (p ∈ checkGroup q)) := by decide
  have hmask : ∀ p ∈ (List.range' 1 12).reverse, pos (r &&& checkMask q) p = (pos r p && decide (p ∈ checkGroup q)) := by
    intro p hp
    rw [List.mem_reverse, List.mem_range'_1] at hp
    rw [pos_and, checkMask, pos_blockOf _ (by omega)]
  calc checkBit r q
    _ = xorAt (pos r) ((List.range' 1 12).reverse.filter fun p => decide (p ∈ checkGroup q)) := xorAt_perm _ (hgroup q hq)
    _ = xorAt (fun p => pos r p && decide (p ∈ checkGroup q)) (List.range' 1 12).reverse := (xorAt_and ..).symm
    _ = xorAt (pos (r &&& checkMask q)) (List.range' 1 12).reverse := (xorAt_congr hmask).symm
    _ = parity (r &&& checkMask q) := (parity_eq_xorAt _).symm

/-- The syndrome on the bus is `(s8, s4, s2, s1)` (R66). -/
theorem getLsbD_syndrome (r : Codeword) :
    (syndrome r).getLsbD 0 = checkBit r 1 ∧ (syndrome r).getLsbD 1 = checkBit r 2 ∧
    (syndrome r).getLsbD 2 = checkBit r 4 ∧ (syndrome r).getLsbD 3 = checkBit r 8 := by
  simp [syndrome]

/-- Settles O7: each bus bit of the syndrome is its check bit, which is the parity of its mask. -/
theorem checkBitsAreMaskParities : Obligations.CheckBitsAreMaskParities := by
  intro r par hpar
  obtain rfl : par = parity := funext hpar
  obtain ⟨h1, h2, h4, h8⟩ := getLsbD_syndrome r
  obtain ⟨c1, c2, c4, c8⟩ := checkBit_eq r
  obtain ⟨m1, m2, m4, m8⟩ := checkMask_eq
  rw [h1, h2, h4, h8, ← m1, ← m2, ← m4, ← m8]
  exact ⟨checkBit_eq_parity r (by decide), checkBit_eq_parity r (by decide), checkBit_eq_parity r (by decide),
    checkBit_eq_parity r (by decide), c1, c2, c4, c8, syndrome_toNat r⟩

/-! ### The codeword on the bus (R65) -/

/-- Settles O6: bus bit `i` is position `12 - i`, and the positions are those of `pos_encodeByte_data` and `pos_encodeByte_parity`. -/
theorem codewordOnTheBus : Obligations.CodewordOnTheBus := by
  rintro d P1 P2 P4 P8 rfl rfl rfl rfl i hi
  obtain ⟨h3, h5, h6, h7, h9, h10, h11, h12⟩ := pos_encodeByte_data d
  obtain ⟨h1, h2, h4, h8⟩ := pos_encodeByte_parity d
  rw [getLsbD_eq_pos _ hi]
  interval_cases i
  · exact h12
  · exact h11
  · exact h10
  · exact h9
  · exact h8
  · exact h7
  · exact h6
  · exact h5
  · exact h4
  · exact h3
  · exact h2
  · exact h1

/-! ### The status of a syndrome (R67, R68) -/

theorem statusOf_clean {e : Syndrome} (h : e.toNat = 0) : statusOf e = 0b00#2 := by
  simp only [statusOf, classify, if_pos h, statusBits]

theorem statusOf_corrected {e : Syndrome} (h1 : 1 ≤ e.toNat) (h12 : e.toNat ≤ 12) : statusOf e = 0b01#2 := by
  simp only [statusOf, classify, if_neg (show e.toNat ≠ 0 by omega), if_pos h12, statusBits]

theorem statusOf_uncorrectable {e : Syndrome} (h : 13 ≤ e.toNat) : statusOf e = 0b10#2 := by
  simp only [statusOf, classify, if_neg (show e.toNat ≠ 0 by omega), if_neg (show ¬ e.toNat ≤ 12 by omega), statusBits]

/-- The three classes leave no fourth status. -/
theorem statusOf_ne_three (e : Syndrome) : statusOf e ≠ 0b11#2 := by
  obtain h | h | h : e.toNat = 0 ∨ (1 ≤ e.toNat ∧ e.toNat ≤ 12) ∨ 13 ≤ e.toNat := by omega
  · rw [statusOf_clean h]; decide
  · rw [statusOf_corrected h.1 h.2]; decide
  · rw [statusOf_uncorrectable h]; decide

/-- The two status bits in gates, over the sixteen syndromes. -/
theorem statusOf_gates : ∀ e : Syndrome,
    (statusOf e).getLsbD 1 = (e.getLsbD 3 && e.getLsbD 2 && (e.getLsbD 1 || e.getLsbD 0)) ∧
    (statusOf e).getLsbD 0 = ((e.getLsbD 3 || e.getLsbD 2 || e.getLsbD 1 || e.getLsbD 0) && !(statusOf e).getLsbD 1) := by
  decide

/-- Settles O8, by the class of the syndrome and the gates. -/
theorem statusClassesAndGates : Obligations.StatusClassesAndGates :=
  fun e => ⟨statusOf_clean, statusOf_corrected, statusOf_uncorrectable, statusOf_ne_three e, statusOf_gates e⟩

end Sys2Proof.Machine
end

section
/-! The encoder (40_encoder.md): `ENC` by its positions, its linearity, the even check groups of its codewords and their distance. -/

namespace Sys2Proof.Machine

/-! ### What `ENC` answers (R91) -/

theorem exec_enc (d : Byte) (s : State) : exec (.enc d) s = .next { s with codeOut := some (encodeByte d) } := rfl

theorem dataBit_of_lt (b : Byte) {i : Nat} (h : i < 8) : dataBit b i = b.getLsbD (7 - i) := by
  simp only [dataBit, h, decide_true, Bool.true_and]

/-- The codeword holds bit `7 - i` of the byte at data position `i`. -/
theorem pos_encodeByte_dataPosition (b : Byte) {i : Nat} (h : i < 8) :
    pos (encodeByte b) (dataPositions.getD i 0) = b.getLsbD (7 - i) := by
  rw [← dataBit_extractByte _ h, extractByte_encodeByte, dataBit_of_lt b h]

/-- The parity positions as XORs of data positions of the codeword itself. -/
theorem pos_encodeByte_membership (b : Byte) :
    pos (encodeByte b) 1 = (pos (encodeByte b) 3 ^^ pos (encodeByte b) 5 ^^ pos (encodeByte b) 7 ^^ pos (encodeByte b) 9 ^^
      pos (encodeByte b) 11) ∧
    pos (encodeByte b) 2 = (pos (encodeByte b) 3 ^^ pos (encodeByte b) 6 ^^ pos (encodeByte b) 7 ^^ pos (encodeByte b) 10 ^^
      pos (encodeByte b) 11) ∧
    pos (encodeByte b) 4 = (pos (encodeByte b) 5 ^^ pos (encodeByte b) 6 ^^ pos (encodeByte b) 7 ^^ pos (encodeByte b) 12) ∧
    pos (encodeByte b) 8 = (pos (encodeByte b) 9 ^^ pos (encodeByte b) 10 ^^ pos (encodeByte b) 11 ^^
      pos (encodeByte b) 12) := by
  obtain ⟨h3, h5, h6, h7, h9, h10, h11, h12⟩ := pos_encodeByte_data b
  rw [h3, h5, h6, h7, h9, h10, h11, h12]
  exact pos_encodeByte_parity b

/-- A block of another syndrome than 0 is no byte's codeword. -/
theorem encodeByte_ne_of_syndrome_ne_zero {c : Codeword} (h : syndrome c ≠ 0#4) (b : Byte) : encodeByte b ≠ c := by
  rintro rfl
  exact h (syndrome_encodeByte b)

theorem syndrome_allOnes : syndrome 0xFFF#12 = 12#4 := by decide

/-- Settles O9: the codeword by its data and parity positions; the all-ones word has syndrome 12, so it is no codeword. -/
theorem encCompletesWithCodeword : Obligations.EncCompletesWithCodeword := by
  refine ⟨fun _ _ => rfl, fun d s => ⟨encodeByte d, exec_enc d s, fun _ hi => pos_encodeByte_dataPosition d hi,
    pos_encodeByte_membership d⟩, by decide, by decide, encodeByte_ne_of_syndrome_ne_zero ?_, syndrome_allOnes, by decide⟩
  rw [syndrome_allOnes]
  decide

/-! ### Even check groups (R94) -/

theorem xorAt_nil (f : Nat → Bit) : xorAt f [] = false := rfl

theorem xorAt_cons (f : Nat → Bit) (p : Nat) (ps : List Nat) : xorAt f (p :: ps) = (f p ^^ xorAt f ps) := by
  have hmap : ∀ qs, xorAt f qs = (qs.map f).foldl xor false := fun qs => List.foldl_map.symm
  rw [hmap, hmap, List.map_cons, List.foldl_cons, Bool.xor_comm, List.foldl_assoc]

/-- An XOR is 0 exactly where the number of ones is even. -/
theorem xorAt_eq_false_iff (f : Nat → Bit) (ps : List Nat) : xorAt f ps = false ↔ (ps.filter f).length % 2 = 0 := by
  induction ps with
  | nil => simp [xorAt_nil]
  | cons p ps ih =>
    rw [xorAt_cons, List.filter_cons]
    cases hp : f p
    · simpa using ih
    · have hodd : xorAt f ps = true ↔ (ps.filter f).length % 2 = 1 := by
        rw [← Bool.not_eq_false, ih]; omega
      simp only [Bool.true_xor, Bool.not_eq_false', if_true, List.length_cons, hodd]
      omega

/-- The check bits of a block of syndrome 0 are 0. -/
theorem checkBit_of_syndrome_zero {c : Codeword} (h : syndrome c = 0#4) {q : Nat} (hq : q ∈ parityPositions) :
    checkBit c q = false := by
  obtain ⟨h1, h2, h4, h8⟩ := (syndrome_eq_zero_iff c).mp h
  simp only [parityPositions, List.mem_cons, List.not_mem_nil, or_false] at hq
  rcases hq with rfl | rfl | rfl | rfl <;> assumption

/-- Settles O11: a check bit is the XOR of its group, and those of a codeword are 0. -/
theorem codewordsHaveSyndromeZero : Obligations.CodewordsHaveSyndromeZero := fun b =>
  ⟨syndrome_encodeByte b, fun q hq =>
    (xorAt_eq_false_iff _ (checkGroup q)).mp (checkBit_of_syndrome_zero (syndrome_encodeByte b) hq)⟩

/-! ### Linearity (R93) -/

theorem pos_xor (c c' : Codeword) (p : Nat) : pos (c ^^^ c') p = (pos c p ^^ pos c' p) := by
  simp only [pos, BitVec.getLsbD_xor, Bool.and_xor_distrib_left]

theorem placedBit_xor (a b : Byte) (p : Nat) : placedBit (a ^^^ b) p = (placedBit a p ^^ placedBit b p) := by
  simp only [placedBit, dataBit, BitVec.getLsbD_xor, Bool.and_xor_distrib_left]

/-- An XOR of XORs may be taken in any order. -/
theorem xorAt_xor (f g : Nat → Bit) (ps : List Nat) : xorAt (fun p => f p ^^ g p) ps = (xorAt f ps ^^ xorAt g ps) := by
  induction ps with
  | nil => rfl
  | cons p ps ih => simp only [xorAt_cons, ih, Bool.xor_assoc, Bool.xor_left_comm]

theorem encBit_xor (a b : Byte) (p : Nat) : encBit (a ^^^ b) p = (encBit a p ^^ encBit b p) := by
  have hplaced : placedBit (a ^^^ b) = fun p => placedBit a p ^^ placedBit b p := funext (placedBit_xor a b)
  simp only [encBit, hplaced]
  split
  · exact xorAt_xor ..
  · rfl

/-- `ENC` is linear, because each bit of the codeword is. -/
theorem encodeByte_xor (a b : Byte) : encodeByte (a ^^^ b) = encodeByte a ^^^ encodeByte b := by
  apply eq_of_pos
  intro p h1 h12
  rw [pos_xor, pos_encodeByte _ ⟨h1, h12⟩, pos_encodeByte _ ⟨h1, h12⟩, pos_encodeByte _ ⟨h1, h12⟩, encBit_xor]

/-- `ENC` is one-to-one: the byte can be read back from its codeword. -/
theorem encodeByte_injective : Function.Injective encodeByte :=
  Function.LeftInverse.injective extractByte_encodeByte

/-! ### Distance (R93): a block of syndrome 0 has no ones or at least three -/

/-- The positions of a block that hold a one. -/
def onePositions (c : Codeword) : List Nat := (List.range' 1 12).filter (pos c)

/-- There are as many ones in stream order. -/
theorem length_filter_codewordBits (c : Codeword) : ((codewordBits c).filter id).length = (onePositions c).length := by
  rw [codewordBits, List.filter_map, List.length_map, onePositions, Function.id_comp]

theorem mem_onePositions_bounds {c : Codeword} {p : Nat} (h : p ∈ onePositions c) : 1 ≤ p ∧ p ≤ 12 := by
  have := List.mem_range'_1.mp (List.mem_of_mem_filter h)
  omega

theorem onePositions_nodup (c : Codeword) : (onePositions c).Nodup := (List.nodup_range' ..).filter _

theorem eq_zero_of_onePositions_nil {c : Codeword} (h : onePositions c = []) : c = 0#12 := by
  apply eq_of_pos
  intro p h1 h12
  have hp : pos c p ≠ true := List.filter_eq_nil_iff.mp h p (List.mem_range'_1.mpr (by omega))
  simpa [pos] using hp

/-- A check group is the positions of a block that belong to it. -/
theorem checkGroup_perm : ∀ q ∈ parityPositions,
    (checkGroup q).Perm ((List.range' 1 12).filter fun p => decide (p ∈ checkGroup q)) := by
  decide

/-- A check bit counts, modulo 2, the ones whose position belongs to its group. -/
theorem checkBit_eq_xorAt_onePositions (c : Codeword) {q : Nat} (hq : q ∈ parityPositions) :
    checkBit c q = xorAt (fun p => decide (p ∈ checkGroup q)) (onePositions c) := by
  calc checkBit c q
    _ = xorAt (pos c) ((List.range' 1 12).filter fun p => decide (p ∈ checkGroup q)) := xorAt_perm _ (checkGroup_perm q hq)
    _ = xorAt (fun p => pos c p && decide (p ∈ checkGroup q)) (List.range' 1 12) := (xorAt_and ..).symm
    _ = xorAt (fun p => decide (p ∈ checkGroup q) && pos c p) (List.range' 1 12) := by simp only [Bool.and_comm]
    _ = xorAt (fun p => decide (p ∈ checkGroup q)) (onePositions c) := xorAt_and ..

/-- One position alone would make some group odd; two would have to share all their groups, and no two do. -/
theorem three_le_onePositions {c : Codeword} (h : syndrome c = 0#4) (hc : c ≠ 0#12) : 3 ≤ (onePositions c).length := by
  have hgroup : ∀ q ∈ parityPositions, xorAt (fun p => decide (p ∈ checkGroup q)) (onePositions c) = false :=
    fun q hq => (checkBit_eq_xorAt_onePositions c hq).symm.trans (checkBit_of_syndrome_zero h hq)
  have hbounds : ∀ p ∈ onePositions c, 1 ≤ p ∧ p ≤ 12 := fun _ => mem_onePositions_bounds
  have hnodup := onePositions_nodup c
  match hones : onePositions c with
  | [] => exact absurd (eq_zero_of_onePositions_nil hones) hc
  | [p] =>
    rw [hones] at hgroup hbounds
    have hout : ∀ q ∈ parityPositions, p ∉ checkGroup q := by simpa [xorAt_cons, xorAt_nil] using hgroup
    rcases (mem_some_checkGroup_iff p).mpr (hbounds p (by simp)) with hp | hp | hp | hp <;>
      exact absurd hp (hout _ (by decide))
  | [p, p'] =>
    rw [hones] at hgroup hbounds hnodup
    have hp := hbounds p (by simp)
    have hp' := hbounds p' (by simp)
    have hsame : ∀ q ∈ parityPositions, p ∈ checkGroup q ↔ p' ∈ checkGroup q := by
      simpa [xorAt_cons, xorAt_nil] using hgroup
    have heq : (⟨p, by omega⟩ : Fin 13) = ⟨p', by omega⟩ :=
      eq_of_same_checkGroups (Fin.ne_of_val_ne (Nat.ne_of_gt hp.1)) (Fin.ne_of_val_ne (Nat.ne_of_gt hp'.1)) hsame
    have hne : p ≠ p' := by simpa using hnodup
    exact absurd (congrArg Fin.val heq) hne
  | _ :: _ :: _ :: _ => simp

/-- Two different codewords differ in at least three positions: their XOR is a codeword, so it has syndrome 0. -/
theorem three_le_distance {a b : Byte} (h : a ≠ b) :
    3 ≤ ((codewordBits (encodeByte a ^^^ encodeByte b)).filter id).length := by
  rw [length_filter_codewordBits]
  apply three_le_onePositions
  · rw [← encodeByte_xor, syndrome_encodeByte]
  · rw [Ne, BitVec.xor_eq_zero_iff]
    exact encodeByte_injective.ne h

/-- Settles O10, by linearity, the inverse of `ENC` and `three_le_distance`; the codewords of single-bit bytes are computed. -/
theorem encIsLinearWithDistanceThree : Obligations.EncIsLinearWithDistanceThree :=
  ⟨encodeByte_xor, by decide, fun _ _ h => encodeByte_injective.ne h, by decide, by decide, by decide, by decide, by decide,
    by decide, by decide, by decide, fun _ _ => three_le_distance, by decide⟩

end Sys2Proof.Machine
end

section
/-! The syndrome decoder (41_syndrome_decoder.md): the working copy is the received block with the syndrome's position inverted,
which says what `DEC` answers for one, two and three errors and makes it one-to-one. -/

namespace Sys2Proof.Machine

/-! ### Inverting positions -/

/-- A number above 12 names no position, so nothing is inverted (R11). -/
theorem flipPos_of_gt (r : Codeword) {p : Nat} (h : 12 < p) : flipPos r p = r :=
  if_neg (by omega)

/-- `syndrome_flipPos` for position 0 too, where nothing is inverted. -/
theorem syndrome_flipPos_of_le (r : Codeword) {p : Nat} (h : p ≤ 12) :
    syndrome (flipPos r p) = syndrome r ^^^ BitVec.ofNat 4 p := by
  obtain rfl | hp := Nat.eq_zero_or_pos p
  · exact (BitVec.xor_zero ..).symm
  · exact syndrome_flipPos r hp h

/-- A codeword with one position inverted has that position as its syndrome (R106). -/
theorem syndrome_flipPos_encodeByte (b : Byte) {p : Nat} (h : p ≤ 12) :
    syndrome (flipPos (encodeByte b) p) = BitVec.ofNat 4 p := by
  rw [syndrome_flipPos_of_le _ h, syndrome_encodeByte, BitVec.zero_xor]

/-- One inversion, of whatever number, leaves a codeword in the classes 0 to 12 (R108). -/
theorem syndrome_flipPos_encodeByte_le (b : Byte) (p : Nat) : (syndrome (flipPos (encodeByte b) p)).toNat ≤ 12 := by
  obtain h | h := Nat.lt_or_ge 12 p
  · rw [flipPos_of_gt _ h, syndrome_encodeByte]
    decide
  · rw [syndrome_flipPos_encodeByte b h, BitVec.toNat_ofNat]
    omega

/-! ### The working copy (R103) -/

/-- Step 3 is one inversion at the syndrome: a syndrome of 0, 13, 14 or 15 names no position. -/
theorem corrected_eq_flipPos (r : Codeword) : corrected r = flipPos r (syndrome r).toNat := by
  unfold corrected flipPos
  split <;> rfl

/-- The working copy differs from the received block at the syndrome's position and nowhere else. -/
theorem pos_corrected (r : Codeword) {k : Nat} (hk : 1 ≤ k ∧ k ≤ 12) :
    pos (corrected r) k = (pos r k ^^ decide (k = (syndrome r).toNat)) := by
  rw [corrected_eq_flipPos, pos_flipPos r hk]

/-- Where the syndrome names a position, or is 0, the working copy is the codeword of the byte it holds (R108). -/
theorem corrected_eq_encodeByte {r : Codeword} (h : (syndrome r).toNat ≤ 12) :
    corrected r = encodeByte (extractByte (corrected r)) := by
  apply eq_encodeByte_of_syndrome_zero
  rw [corrected_eq_flipPos, syndrome_flipPos_of_le r h, BitVec.ofNat_toNat, BitVec.setWidth_eq, BitVec.xor_self]

/-- A codeword with one position inverted, or none (`p = 0`), is repaired (R106). -/
theorem decodeBlock_flipPos_encodeByte (b : Byte) {p : Nat} (h : p ≤ 12) :
    decodeBlock (flipPos (encodeByte b) p) = (b, BitVec.ofNat 4 p) := by
  have hp : p % 2 ^ 4 = p := Nat.mod_eq_of_lt (by omega)
  rw [decodeBlock, corrected_eq_flipPos, syndrome_flipPos_encodeByte b h, BitVec.toNat_ofNat, hp, flipPos_flipPos,
    extractByte_encodeByte]

/-- Settles O13: the cases of no inversion and of one. -/
theorem singleErrorsAreCorrected : Obligations.SingleErrorsAreCorrected :=
  fun b => ⟨decodeBlock_encodeByte b, fun _ _ hp => decodeBlock_flipPos_encodeByte b hp⟩

/-! ### What `DEC` answers (R101 to R105, R109) -/

theorem exec_dec (r : Codeword) (s : State) : exec (.dec r) s = .next { s with decoderOut := some (decodedOf r) } := rfl

/-- Data bit `i` of the answer is the working copy's bit at data position `i` (R104). -/
theorem getLsbD_decodeBlock (r : Codeword) {i : Nat} (h : i < 8) :
    (decodeBlock r).1.getLsbD (7 - i) = pos (corrected r) (dataPositions.getD i 0) := by
  rw [← dataBit_of_lt _ h]
  exact dataBit_extractByte _ h

/-- The syndrome as a number, its check bits written out (R102). -/
theorem syndrome_toNat_eq_pos (r : Codeword) : (syndrome r).toNat =
    (pos r 1 ^^ pos r 3 ^^ pos r 5 ^^ pos r 7 ^^ pos r 9 ^^ pos r 11).toNat
      + 2 * (pos r 2 ^^ pos r 3 ^^ pos r 6 ^^ pos r 7 ^^ pos r 10 ^^ pos r 11).toNat
      + 4 * (pos r 4 ^^ pos r 5 ^^ pos r 6 ^^ pos r 7 ^^ pos r 12).toNat
      + 8 * (pos r 8 ^^ pos r 9 ^^ pos r 10 ^^ pos r 11 ^^ pos r 12).toNat := by
  obtain ⟨c1, c2, c4, c8⟩ := checkBit_eq r
  rw [syndrome_toNat, c1, c2, c4, c8]

/-- The status by the number the syndrome stands for (R105). -/
theorem statusOf_eq_ite (e : Syndrome) :
    statusOf e = if e.toNat = 0 then 0b00#2 else if e.toNat ≤ 12 then 0b01#2 else 0b10#2 := by
  split_ifs with h0 h12
  · exact statusOf_clean h0
  · exact statusOf_corrected (by omega) h12
  · exact statusOf_uncorrectable (by omega)

/-- Settles O12: the syndrome, the working copy and the outputs are the model's own, each by its lemma. -/
theorem decCompletesInFourSteps : Obligations.DecCompletesInFourSteps := by
  refine ⟨fun _ _ => rfl, fun r s => ⟨(syndrome r).toNat, corrected r, decodedOf r, exec_dec r s, syndrome_toNat_eq_pos r,
    fun p h1 h12 => ?_, fun i hi => getLsbD_decodeBlock r hi, rfl, statusOf_eq_ite (syndrome r)⟩⟩
  rw [pos_corrected r ⟨h1, h12⟩]
  by_cases hp : p = (syndrome r).toNat
  · rw [if_pos (by omega), decide_eq_true hp, Bool.xor_true]
  · rw [if_neg (by omega), decide_eq_false hp, Bool.xor_false]

/-- The data positions are positions of the codeword (R63). -/
theorem dataPositions_bounds {k : Nat} (h : k ∈ dataPositions) : 1 ≤ k ∧ k ≤ 12 := by
  have hall : ∀ k ∈ dataPositions, 1 ≤ k ∧ k ≤ 12 := by decide
  exact hall k h

/-- A data index has a data position. -/
theorem getD_mem_dataPositions {i : Nat} (h : i < 8) : dataPositions.getD i 0 ∈ dataPositions := by
  rw [List.getD_eq_getElem _ _ h]
  exact List.getElem_mem _

/-- Settles O16: extraction reads the working copy, which differs from the block at the syndrome alone. -/
theorem decGateForm : Obligations.DecGateForm := by
  rintro r i hi k rfl
  rw [getLsbD_decodeBlock r hi, pos_corrected r (dataPositions_bounds (getD_mem_dataPositions hi))]
  exact congrArg (pos r _ ^^ ·) (decide_eq_decide.mpr eq_comm)

/-! ### The classes of blocks (R108) -/

/-- Every position of the codeword is a parity position or a data position (R63). -/
theorem mem_parityPositions_or_dataPositions {k : Nat} (h1 : 1 ≤ k) (h12 : k ≤ 12) :
    k ∈ parityPositions ∨ k ∈ dataPositions := by
  interval_cases k <;> decide

/-- Blocks that hold the same byte agree at every data position. -/
theorem pos_eq_of_extractByte_eq {w w' : Codeword} (h : extractByte w = extractByte w') {k : Nat}
    (hk : k ∈ dataPositions) : pos w k = pos w' k := by
  obtain ⟨i, hi, rfl⟩ := List.mem_iff_getElem.mp hk
  have hbit := congrArg (dataBit · i) h
  simp only [dataBit_extractByte _ hi, List.getD_eq_getElem _ _ hi] at hbit
  exact hbit

/-- The check bits can be read off the syndrome. -/
theorem checkBit_eq_of_syndrome_eq {r r' : Codeword} (h : syndrome r = syndrome r') {q : Nat} (hq : q ∈ parityPositions) :
    checkBit r q = checkBit r' q := by
  obtain ⟨h1, h2, h4, h8⟩ := getLsbD_syndrome r
  obtain ⟨h1', h2', h4', h8'⟩ := getLsbD_syndrome r'
  simp only [parityPositions, List.mem_cons, List.not_mem_nil, or_false] at hq
  rcases hq with rfl | rfl | rfl | rfl
  · rw [← h1, h, h1']
  · rw [← h2, h, h2']
  · rw [← h4, h, h4']
  · rw [← h8, h, h8']

/-- The syndrome and the data positions determine a block: each parity position is its check bit XOR its membership set. -/
theorem eq_of_syndrome_eq_of_data_eq {r r' : Codeword} (hsyn : syndrome r = syndrome r')
    (hdata : ∀ k ∈ dataPositions, pos r k = pos r' k) : r = r' := by
  have hmem : ∀ q ∈ parityPositions, ∀ k ∈ membership q, k ∈ dataPositions := by decide
  apply eq_of_pos
  intro k h1 h12
  obtain hk | hk := mem_parityPositions_or_dataPositions h1 h12
  · have hcheck := checkBit_eq_of_syndrome_eq hsyn hk
    have hset : xorAt (pos r) (membership k) = xorAt (pos r') (membership k) :=
      xorAt_congr fun p hp => hdata p (hmem k hk p hp)
    rw [checkBit, checkBit, checkGroup, xorAt_cons, xorAt_cons, hset] at hcheck
    exact Bool.xor_left_inj.mp hcheck
  · exact hdata k hk

/-- `DEC` is one-to-one: the byte and the syndrome give the working copy's data bits, and those of the block. -/
theorem decodeBlock_injective : Function.Injective decodeBlock := by
  intro r r' h
  obtain ⟨hbyte, hsyn⟩ := Prod.mk.inj h
  refine eq_of_syndrome_eq_of_data_eq hsyn fun k hk => ?_
  have hpos := pos_eq_of_extractByte_eq hbyte hk
  have hbounds := dataPositions_bounds hk
  rw [pos_corrected r hbounds, pos_corrected r' hbounds, hsyn] at hpos
  exact Bool.xor_left_inj.mp hpos

/-- `DEC` takes every value once: it is one-to-one, and there are as many blocks as pairs of a byte and a syndrome. -/
theorem decodeBlock_bijective : Function.Bijective decodeBlock := by
  rw [Fintype.bijective_iff_injective_and_card, Fintype.card_prod]
  simp only [← FinEnum.card_eq_fintypeCard, FinEnum.card_bitVec]
  exact ⟨decodeBlock_injective, by decide⟩

/-- The classes 0 to 12 are the codewords with that position inverted. -/
theorem syndrome_le_twelve_iff (r : Codeword) :
    (syndrome r).toNat ≤ 12 ↔ ∃ b : Byte, r = flipPos (encodeByte b) (syndrome r).toNat := by
  constructor
  · intro h
    refine ⟨extractByte (corrected r), ?_⟩
    rw [← corrected_eq_encodeByte h, corrected_eq_flipPos, flipPos_flipPos]
  · rintro ⟨b, hb⟩
    exact (congrArg (fun c => (syndrome c).toNat) hb).trans_le (syndrome_flipPos_encodeByte_le ..)

/-- A block of class 13, 14 or 15 becomes valid by no single inversion, nor by none: it would have been one inversion from a
codeword. -/
theorem flipPos_ne_encodeByte {r : Codeword} (h : 13 ≤ (syndrome r).toNat) (b : Byte) (p : Nat) :
    flipPos r p ≠ encodeByte b := by
  intro hp
  have hle := syndrome_flipPos_encodeByte_le b p
  rw [← hp, flipPos_flipPos] at hle
  omega

/-- Settles O15, by the bijection, the inverse of step 3, and the classes that no single inversion reaches. -/
theorem syndromeClassesPartitionBlocks : Obligations.SyndromeClassesPartitionBlocks :=
  ⟨fun b e => decodeBlock_bijective.existsUnique (b, e), syndrome_le_twelve_iff,
    fun _ h => ⟨_, corrected_eq_encodeByte h⟩,
    fun r h b => ⟨corrected_eq_flipPos r ▸ flipPos_ne_encodeByte h b (syndrome r).toNat, flipPos_ne_encodeByte h b⟩⟩

/-! ### Two inverted positions (R107) -/

/-- The codeword of a byte with the positions `p` and `q` inverted. -/
def twoErrors (b : Byte) (p q : Nat) : Codeword := flipPos (flipPos (encodeByte b) p) q

/-- The pairs of positions whose XOR names no position (R107 c). -/
def flaggedPairs : List (Nat × Nat) :=
  [(1, 12), (4, 9), (5, 8), (6, 11), (7, 10), (2, 12), (4, 10), (5, 11), (6, 8), (7, 9), (3, 12), (4, 11), (5, 10), (6, 9),
    (7, 8)]

/-- Over all pairs: the list is that of the XORs from 13 up. -/
theorem thirteen_le_xor_iff : ∀ q : Nat, q ≤ 12 → ∀ p < q, (13 ≤ p ^^^ q ↔ (p, q) ∈ flaggedPairs) := by decide

/-- Over all pairs: some data position is inverted an odd number of times by the two errors and the inversion that `DEC` adds at
their XOR; where both errors are at parity positions, the one that `DEC` adds is not. -/
theorem exists_dataPosition_damaged : ∀ q : Nat, q ≤ 12 → ∀ p < q, 1 ≤ p →
    ∃ k ∈ dataPositions, (decide (k = p) ^^ decide (k = q) ^^ decide (k = p ^^^ q)) = true := by
  decide

section
variable {p q : Nat} (b : Byte)

/-- The syndrome of two errors is the XOR of their positions as numbers (R107 a). -/
theorem syndrome_twoErrors (hp : p ≤ 12) (hq : q ≤ 12) : (syndrome (twoErrors b p q)).toNat = p ^^^ q := by
  have hlt : p ^^^ q < 2 ^ 4 := Nat.xor_lt_two_pow (by omega) (by omega)
  rw [twoErrors, syndrome_flipPos_of_le _ hq, syndrome_flipPos_encodeByte b hp, ← BitVec.ofNat_xor, BitVec.toNat_ofNat,
    Nat.mod_eq_of_lt hlt]

/-- The working copy has up to three positions inverted: the two errors and their XOR. -/
theorem pos_corrected_twoErrors (hp : p ≤ 12) (hq : q ≤ 12) {k : Nat} (hk : 1 ≤ k ∧ k ≤ 12) :
    pos (corrected (twoErrors b p q)) k =
      (pos (encodeByte b) k ^^ (decide (k = p) ^^ decide (k = q) ^^ decide (k = p ^^^ q))) := by
  rw [pos_corrected _ hk, syndrome_twoErrors b hp hq, twoErrors, pos_flipPos _ hk, pos_flipPos _ hk, Bool.xor_assoc,
    Bool.xor_assoc, Bool.xor_assoc]

/-- Two errors always give a wrong byte, because a data bit of the working copy is wrong (R107 d). -/
theorem decodeBlock_twoErrors_ne (h1 : 1 ≤ p) (hpq : p < q) (hq : q ≤ 12) : (decodeBlock (twoErrors b p q)).1 ≠ b := by
  intro hbyte
  obtain ⟨k, hk, hodd⟩ := exists_dataPosition_damaged q hq p hpq h1
  have hsame : pos (corrected (twoErrors b p q)) k = pos (encodeByte b) k :=
    pos_eq_of_extractByte_eq (hbyte.trans (extractByte_encodeByte b).symm) hk
  rw [pos_corrected_twoErrors b (by omega) hq (dataPositions_bounds hk), hodd] at hsame
  simp at hsame

/-- Where the XOR names a position, it is a third one, and the working copy is another byte's codeword (R107 b). -/
theorem corrected_twoErrors (h1 : 1 ≤ p) (hpq : p < q) (hq : q ≤ 12) (hle : p ^^^ q ≤ 12) :
    p ^^^ q ≠ p ∧ p ^^^ q ≠ q ∧ ∃ b' : Byte, b' ≠ b ∧ corrected (twoErrors b p q) = encodeByte b' ∧
      corrected (twoErrors b p q) = flipPos (twoErrors b p q) (p ^^^ q) := by
  have hsyn := syndrome_twoErrors b (show p ≤ 12 by omega) hq
  refine ⟨?_, ?_, _, decodeBlock_twoErrors_ne b h1 hpq hq, corrected_eq_encodeByte (hsyn.trans_le hle), ?_⟩
  · intro h
    have hq0 : q = 0 := Nat.xor_right_injective (h.trans (Nat.xor_zero p).symm)
    omega
  · intro h
    have hp0 : p = 0 := Nat.xor_left_injective (h.trans (Nat.zero_xor q).symm)
    omega
  · rw [corrected_eq_flipPos, hsyn]

end

/-! ### Three inverted positions (R107) -/

/-- Three errors add three positions to the syndrome. -/
theorem syndrome_threeErrors (b : Byte) {p q u : Nat} (hp : p ≤ 12) (hq : q ≤ 12) (hu : u ≤ 12) :
    syndrome (flipPos (twoErrors b p q) u) = BitVec.ofNat 4 p ^^^ BitVec.ofNat 4 q ^^^ BitVec.ofNat 4 u := by
  rw [syndrome_flipPos_of_le _ hu, twoErrors, syndrome_flipPos_of_le _ hq, syndrome_flipPos_encodeByte b hp]

/-- Over the sixteen syndromes: each is the XOR of three positions. -/
theorem exists_three_positions : ∀ e : Syndrome, ∃ u ≤ 12, ∃ q < u, ∃ p < q,
    1 ≤ p ∧ BitVec.ofNat 4 p ^^^ BitVec.ofNat 4 q ^^^ BitVec.ofNat 4 u = e := by
  decide

/-- Three errors can turn a codeword into another byte's codeword. -/
theorem threeErrors_eq_encodeByte : flipPos (twoErrors 0x00#8 1 2) 3 = encodeByte 0x80#8 := by decide

/-- Settles O14, by the working copy of two errors; the pairs and the triples of positions are finite tables. -/
theorem doubleErrorsAreNeverRepaired : Obligations.DoubleErrorsAreNeverRepaired := by
  refine ⟨fun b p q h1 hpq hq => ?_, fun b e => ?_, ?_⟩
  · intro r e
    have hsyn : e = p ^^^ q := syndrome_twoErrors b (by omega) hq
    have hpos : e ≠ 0 := hsyn ▸ Nat.xor_ne_zero_iff.mpr hpq.ne
    refine ⟨hsyn, hpos, hsyn ▸ thirteen_le_xor_iff q hq p hpq, fun hle => ?_, ?_, decodeBlock_twoErrors_ne b h1 hpq hq⟩
    · rw [hsyn] at hle ⊢
      exact corrected_twoErrors b h1 hpq hq hle
    · exact (statusOf_eq_ite (syndrome r)).trans (if_neg hpos)
  · obtain ⟨u, hu, q, hq, p, hp, h1, he⟩ := exists_three_positions e
    exact ⟨p, q, u, h1, hp, hq, hu, (syndrome_threeErrors b (by omega) (by omega) hu).trans he⟩
  · exact (congrArg decodeBlock threeErrors_eq_encodeByte).trans (decodeBlock_encodeByte _)

end Sys2Proof.Machine
end

section
/-! The two channels' edges field by field (42_codec_stream.md R126 to R138): the transfers of a cycle are the wires of Ports.lean, the
registers those of the collated step, and neither channel's edge reads or writes the other. -/

namespace Sys2Proof.Machine

/-! ### The counters as numbers -/

theorem encCnt_val_eq_zero_iff {s : State} : s.encCnt.val = 0 ↔ s.encCnt = 0 :=
  (Fin.ext_iff (a := s.encCnt) (b := 0)).symm

theorem decCnt_val_eq_eleven_iff {s : State} : s.decCnt.val = 11 ↔ s.decCnt = 11 :=
  (Fin.ext_iff (a := s.decCnt) (b := 11)).symm

/-! ### The encode channel's edge -/

/-- An idle channel that is offered a byte accepts it (R130). -/
theorem encAfter_of_offered {s : State} {e : BitVec 9} (hcnt : s.encCnt = 0) (he : ecmdValid e = true) :
    encAfter e s = s.acceptByte (ecmdData e) := by
  simp [encAfter, encIdle_iff.mpr hcnt, he]

/-- The three things the encode channel can do at an edge (R130 to R132). -/
theorem encAfter_cases (e : BitVec 9) (s : State) :
    (s.encCnt = 0 ∧ ecmdValid e = true ∧ encAfter e s = s.acceptByte (ecmdData e)) ∨
    (s.encCnt = 0 ∧ ecmdValid e = false ∧ encAfter e s = s.encodeIdle) ∨
    (s.encCnt ≠ 0 ∧ encAfter e s = s.shiftOut) := by
  by_cases hcnt : s.encCnt = 0
  · cases he : ecmdValid e
    · exact .inr (.inl ⟨hcnt, rfl, encAfter_of_not_offered hcnt he⟩)
    · exact .inl ⟨hcnt, rfl, encAfter_of_offered hcnt he⟩
  · exact .inr (.inr ⟨hcnt, encAfter_of_busy hcnt e⟩)

/-- The edge records the wires and transfers of R128 and R129. -/
theorem encAfter_ports (e : BitVec 9) (s : State) :
    (encAfter e s).encInReady = encInReadyWire s false ∧ (encAfter e s).encIn = encInTransfer s false e ∧
    (encAfter e s).encOut = encOutTransfer s false := by
  obtain ⟨hcnt, he, h⟩ | ⟨hcnt, he, h⟩ | ⟨hcnt, h⟩ := encAfter_cases e s <;>
    simp [State.acceptByte, State.encodeIdle, State.shiftOut, encInReadyWire, encInTransfer, encOutTransfer,
      encOutValidWire, State.encIdle, *]

/-- The encode channel's edge is one update of its own fields. -/
theorem encAfter_eq_encEdge (e : BitVec 9) (s : State) :
    encAfter e s = s.encEdge (encAfter e s).encSr (encAfter e s).encCnt (encAfter e s).encInReady (encAfter e s).encIn
      (encAfter e s).encOut := by
  obtain ⟨-, -, h⟩ | ⟨-, -, h⟩ | ⟨-, h⟩ := encAfter_cases e s <;> rw [h] <;> rfl

/-- What the edge leaves in the channel's fields depends on its two registers alone (R126). -/
theorem encAfter_congr (e : BitVec 9) {s s' : State} (hsr : s'.encSr = s.encSr) (hcnt : s'.encCnt = s.encCnt) :
    (encAfter e s').encSr = (encAfter e s).encSr ∧ (encAfter e s').encCnt = (encAfter e s).encCnt ∧
    (encAfter e s').encInReady = (encAfter e s).encInReady ∧ (encAfter e s').encIn = (encAfter e s).encIn ∧
    (encAfter e s').encOut = (encAfter e s).encOut := by
  obtain ⟨hcnt0, he, h⟩ | ⟨hcnt0, he, h⟩ | ⟨hcnt0, h⟩ := encAfter_cases e s
  · rw [h, encAfter_of_offered (hcnt.trans hcnt0) he]
    exact ⟨rfl, rfl, rfl, rfl, rfl⟩
  · rw [h, encAfter_of_not_offered (hcnt.trans hcnt0) he]
    exact ⟨hsr, hcnt, rfl, rfl, rfl⟩
  · rw [h, encAfter_of_busy (hcnt ▸ hcnt0)]
    simp [State.shiftOut, encOutBitWire, hsr, hcnt]

/-! ### The decode channel's edge -/

/-- The bit part of the decode channel's edge: `DBIT` with a bit, `DIDLE` without (R134, R135). -/
def State.offerBit (s : State) (w : BitVec 3) : State := if dcmdValid w then s.takeBit (dcmdBit w) else s.noBit

/-- The edge takes the bit first and the boundary second (R136). -/
theorem decAfter_eq (w : BitVec 3) (s : State) :
    decAfter w s = if dcmdLast w then (s.offerBit w).applyBoundary else s.offerBit w := by
  unfold decAfter State.offerBit
  cases dcmdValid w <;> cases dcmdLast w <;> rfl

/-- The three things the decode channel can do with its bit (R134, R135). -/
theorem offerBit_cases (w : BitVec 3) (s : State) :
    (dcmdValid w = false ∧ s.offerBit w = s.noBit) ∨
    (dcmdValid w = true ∧ s.decCnt = 11 ∧
      s.offerBit w = s.decEdge 0#11 0 (some (dcmdBit w)) (some (decodedOf (decBlock s (dcmdBit w)))) false) ∨
    (dcmdValid w = true ∧ s.decCnt ≠ 11 ∧
      s.offerBit w = s.decEdge ((s.decSr.setWidth 10).concat (dcmdBit w)) (countUp s.decCnt) (some (dcmdBit w)) none false) := by
  unfold State.offerBit
  cases dcmdValid w
  · exact .inl ⟨rfl, rfl⟩
  · obtain ⟨hcnt, h⟩ | ⟨hcnt, h⟩ := takeBit_cases s (dcmdBit w)
    · exact .inr (.inl ⟨rfl, hcnt, h⟩)
    · exact .inr (.inr ⟨rfl, hcnt, h⟩)

/-- The edge records the transfers of R128 and R133, and the boundary of R141. -/
theorem decAfter_ports (w : BitVec 3) (s : State) :
    (decAfter w s).decIn = decInTransfer false w ∧ (decAfter w s).decOut = decOutTransfer s false w ∧
    (decAfter w s).boundary = dcmdLast w := by
  rw [decAfter_eq]
  obtain ⟨hw, h⟩ | ⟨hw, hcnt, h⟩ | ⟨hw, hcnt, h⟩ := offerBit_cases w s <;> rw [h] <;> cases dcmdLast w <;>
    simp [State.noBit, State.applyBoundary, decInTransfer, decOutTransfer, decOutValidWire, decOutWires, *]

/-- The decode channel's edge is one update of its own fields. -/
theorem decAfter_eq_decEdge (w : BitVec 3) (s : State) :
    decAfter w s = s.decEdge (decAfter w s).decSr (decAfter w s).decCnt (decAfter w s).decIn (decAfter w s).decOut
      (decAfter w s).boundary := by
  rw [decAfter_eq]
  obtain ⟨-, h⟩ | ⟨-, -, h⟩ | ⟨-, -, h⟩ := offerBit_cases w s <;> rw [h] <;> cases dcmdLast w <;> rfl

/-- The bit part is the same update on two states with the same decode registers. -/
theorem offerBit_congr (w : BitVec 3) {s s' : State} (hsr : s'.decSr = s.decSr) (hcnt : s'.decCnt = s.decCnt) :
    ∃ sr cnt taken out, s.offerBit w = s.decEdge sr cnt taken out false ∧ s'.offerBit w = s'.decEdge sr cnt taken out false := by
  unfold State.offerBit State.takeBit State.noBit decBlock
  rw [hsr, hcnt]
  split
  · split <;> exact ⟨_, _, _, _, rfl, rfl⟩
  · exact ⟨_, _, _, _, rfl, rfl⟩

/-- What the edge leaves in the channel's fields depends on its two registers alone (R126). -/
theorem decAfter_congr (w : BitVec 3) {s s' : State} (hsr : s'.decSr = s.decSr) (hcnt : s'.decCnt = s.decCnt) :
    (decAfter w s').decSr = (decAfter w s).decSr ∧ (decAfter w s').decCnt = (decAfter w s).decCnt ∧
    (decAfter w s').decIn = (decAfter w s).decIn ∧ (decAfter w s').decOut = (decAfter w s).decOut ∧
    (decAfter w s').boundary = (decAfter w s).boundary := by
  obtain ⟨sr, cnt, taken, out, h, h'⟩ := offerBit_congr w hsr hcnt
  rw [decAfter_eq, decAfter_eq, h, h']
  cases dcmdLast w <;> exact ⟨rfl, rfl, rfl, rfl, rfl⟩

/-! ### Both channels -/

/-- The two edges of a cycle can be taken in either order (R126, R167). -/
theorem decAfter_encAfter_comm (w : BitVec 3) (e : BitVec 9) (s : State) :
    decAfter w (encAfter e s) = encAfter e (decAfter w s) := by
  obtain ⟨hdsr, hdcnt, -⟩ := encAfter_frame e s
  obtain ⟨hesr, hecnt, -⟩ := decAfter_frame w s
  obtain ⟨d1, d2, d3, d4, d5⟩ := decAfter_congr w hdsr hdcnt
  obtain ⟨e1, e2, e3, e4, e5⟩ := encAfter_congr e hesr hecnt
  rw [decAfter_eq_decEdge w (encAfter e s), d1, d2, d3, d4, d5, encAfter_eq_encEdge e (decAfter w s), e1, e2, e3, e4, e5,
    encAfter_eq_encEdge e s, decAfter_eq_decEdge w s]
  rfl

end Sys2Proof.Machine
end

section
/-! The operations of the two channels (42_codec_stream.md R130 to R137): `exec` of each as the edge of its command word, and the whole
state that edge gives. -/

namespace Sys2Proof.Machine

/-! ### `exec` as the edge of the word -/

/-- An encode-channel operation has the edge of its word. -/
theorem exec_ecmd {i : Instr} (h : i.format = .ecmd) : ∃ e, ∀ s, exec i s = s.whenReset (encAfter e s) := by
  cases i with
  | epush d => exact ⟨_, exec_epush_eq d⟩
  | eidle x => exact ⟨_, exec_eidle_eq x⟩
  | eshift w => exact ⟨_, exec_eshift_eq w⟩
  | _ => cases h

theorem exec_didle_eq (x : Bit) (s : State) : exec (.didle x) s = s.whenReset (decAfter (dcmdWord false false x) s) := by
  simp [exec, execDidle, decAfter]

theorem exec_dbit_eq (b : Bit) (s : State) : exec (.dbit b) s = s.whenReset (decAfter (dcmdWord true false b) s) := by
  simp [exec, execDbit, decAfter]

theorem exec_dbitl_eq (b : Bit) (s : State) : exec (.dbitl b) s = s.whenReset (decAfter (dcmdWord true true b) s) := by
  simp [exec, execDbitl, decAfter]

theorem exec_dend_eq (x : Bit) (s : State) : exec (.dend x) s = s.whenReset (decAfter (dcmdWord false true x) s) := by
  simp [exec, execDend, decAfter]

/-- A decode-channel operation has the edge of its word. -/
theorem exec_dcmd {j : Instr} (h : j.format = .dcmd) : ∃ w, ∀ s, exec j s = s.whenReset (decAfter w s) := by
  cases j with
  | didle x => exact ⟨_, exec_didle_eq x⟩
  | dbit b => exact ⟨_, exec_dbit_eq b⟩
  | dbitl b => exact ⟨_, exec_dbitl_eq b⟩
  | dend x => exact ⟨_, exec_dend_eq x⟩
  | _ => cases h

/-! ### The encode channel -/

/-- Settles O25: at an idle channel the word's edge accepts the byte. -/
theorem epushLoadsTheCodeword : Obligations.EpushLoadsTheCodeword := by
  intro d s hdone hcnt
  refine ⟨decode_encode (i := .epush d) (.inr (by simp [hcnt, Instr.needsIdle])), ?_⟩
  rw [exec_epush_eq, encAfter_of_offered hcnt (ecmdValid_ecmdWord ..), ecmdData_ecmdWord, whenReset_of_done hdone]
  rfl

/-- Settles O26: at an idle channel that is offered nothing the edge changes no register. -/
theorem eidleChangesNoRegister : Obligations.EidleChangesNoRegister := by
  intro x s hdone hcnt
  refine ⟨decode_encode (i := .eidle x) (.inr (by simp [hcnt, Instr.needsIdle])), ?_⟩
  rw [exec_eidle_eq, encAfter_of_not_offered hcnt (ecmdValid_ecmdWord ..), whenReset_of_done hdone]
  rfl

/-- Settles O27: at a busy channel every word's edge is the shift. -/
theorem eshiftPutsOutOneBit : Obligations.EshiftPutsOutOneBit := by
  intro x s hdone hcnt
  have hpos : s.encCnt.val ≠ 0 := mt encCnt_val_eq_zero_iff.mp hcnt
  refine ⟨decode_encode (i := .eshift x) (.inr (by simp [hcnt, Instr.needsIdle])), countDown s.encCnt, ?_, ?_⟩
  · rw [countDown_val]
    omega
  · rw [exec_eshift_eq, encAfter_of_busy hcnt, whenReset_of_done hdone, State.shiftOut, shift_eq_shiftLeft]
    rfl

/-! ### The decode channel -/

/-- Settles O29: with no bit and no boundary the edge keeps the registers. -/
theorem didleKeepsTheChunk : Obligations.DidleKeepsTheChunk := by
  intro x s hdone
  refine ⟨decode_encode (i := .didle x) (.inl rfl), ?_⟩
  exact whenReset_of_done hdone _

/-- Settles O32: with no bit the edge is the boundary alone. -/
theorem dendDiscardsTheChunk : Obligations.DendDiscardsTheChunk := by
  intro x s hdone
  refine ⟨decode_encode (i := .dend x) (.inl rfl), ?_⟩
  exact whenReset_of_done hdone _

/-- The block of the eleven stored bits and the twelfth, as a number (R133). -/
theorem decBlock_toNat (s : State) (b : Bit) : (decBlock s b).toNat = 2 * s.decSr.toNat + b.toNat := by
  rw [decBlock, BitVec.toNat_concat, Nat.mul_comm]

/-- Settles O30: the two cases of taking a bit. -/
theorem dbitTakesOneBit : Obligations.DbitTakesOneBit := by
  intro b s hdone
  have hexec : exec (.dbit b) s = .next (s.takeBit b) := whenReset_of_done hdone _
  refine ⟨decode_encode (i := .dbit b) (.inl rfl), fun hcnt => ?_, fun hcnt => ?_⟩
  · refine ⟨decBlock s b, decBlock_toNat s b, ?_⟩
    rw [hexec, State.takeBit, if_pos hcnt]
    rfl
  · refine ⟨(s.decSr.setWidth 10).concat b, countUp s.decCnt, ?_, countUp_val hcnt, ?_⟩
    · have hb := b.toNat_lt
      rw [BitVec.toNat_concat, BitVec.toNat_setWidth]
      omega
    · rw [hexec, State.takeBit, if_neg hcnt]
      rfl

/-- Settles O31: the two cases of taking a bit, with the boundary after it. -/
theorem dbitlTakesTheBitThenCuts : Obligations.DbitlTakesTheBitThenCuts := by
  intro b s hdone
  have hexec : exec (.dbitl b) s = .next (s.takeBit b).applyBoundary := whenReset_of_done hdone _
  refine ⟨decode_encode (i := .dbitl b) (.inl rfl), fun hcnt => ?_, fun hcnt => ?_⟩
  · refine ⟨decBlock s b, decBlock_toNat s b, ?_⟩
    rw [hexec, State.takeBit, if_pos hcnt]
    rfl
  · rw [hexec, State.takeBit, if_neg hcnt]
    rfl

/-! ### The channels apart (R126) -/

/-- Settles O35: each operation is an edge, with the frame, the dependence and the commutation of the edges. -/
theorem channelsDoNotInteract : Obligations.ChannelsDoNotInteract := by
  refine ⟨fun i s t hi hs => ?_, fun j s t hj hs => ?_, fun i j s hi hj => ?_⟩
  · obtain ⟨e, hexec⟩ := exec_ecmd hi
    rw [hexec] at hs
    obtain ⟨-, rfl⟩ := whenReset_eq_next.mp hs
    obtain ⟨hdsr, hdcnt, hin, hout, hbound, -⟩ := encAfter_frame e s
    refine ⟨hdsr, hdcnt, hin, hout, hbound, fun s' t' hs' hsr hcnt => ?_⟩
    rw [hexec] at hs'
    obtain ⟨-, rfl⟩ := whenReset_eq_next.mp hs'
    exact encAfter_congr e hsr hcnt
  · obtain ⟨w, hexec⟩ := exec_dcmd hj
    rw [hexec] at hs
    obtain ⟨-, rfl⟩ := whenReset_eq_next.mp hs
    obtain ⟨hesr, hecnt, hready, hin, hout, -⟩ := decAfter_frame w s
    refine ⟨hesr, hecnt, hready, hin, hout, fun s' t' hs' hsr hcnt => ?_⟩
    rw [hexec] at hs'
    obtain ⟨-, rfl⟩ := whenReset_eq_next.mp hs'
    exact decAfter_congr w hsr hcnt
  · obtain ⟨e, hi⟩ := exec_ecmd hi
    obtain ⟨w, hj⟩ := exec_dcmd hj
    cases hdone : s.resetDone
    · rw [runOps_cons_of_refused ((hi s).trans (whenReset_of_not_done hdone _)),
        runOps_cons_of_refused ((hj s).trans (whenReset_of_not_done hdone _))]
    · rw [runOps_cons_of_next ((hi s).trans (whenReset_of_done hdone _)), runOps_singleton, hj,
        runOps_cons_of_next ((hj s).trans (whenReset_of_done hdone _)), runOps_singleton, hi,
        whenReset_of_done (by simpa using hdone), whenReset_of_done (by simpa using hdone), decAfter_encAfter_comm]

end Sys2Proof.Machine
end

section
/-! A clock cycle by the port equations (42_codec_stream.md R128, R129, R133, R141) and by the collated step (R138). -/

namespace Sys2Proof.Machine

theorem nextInput_of_cons {s : State} {p : PortInput} {rest : List PortInput} (h : s.inputs = p :: rest) : s.nextInput = p := by
  rw [State.nextInput, h, List.headD_cons]

/-- After both edges the decode channel's fields are those of its own edge (R126). -/
theorem decAfter_encAfter_dec (w : BitVec 3) (e : BitVec 9) (s : State) :
    (decAfter w (encAfter e s)).decSr = (decAfter w s).decSr ∧ (decAfter w (encAfter e s)).decCnt = (decAfter w s).decCnt ∧
    (decAfter w (encAfter e s)).decIn = (decAfter w s).decIn ∧ (decAfter w (encAfter e s)).decOut = (decAfter w s).decOut ∧
    (decAfter w (encAfter e s)).boundary = (decAfter w s).boundary := by
  obtain ⟨hsr, hcnt, hin, hout, hbound, -⟩ := encAfter_frame e (decAfter w s)
  rw [decAfter_encAfter_comm]
  exact ⟨hsr, hcnt, hin, hout, hbound⟩

/-! ### The transfers -/

/-- A clock cycle after a RESET records the wires and transfers of Ports.lean. -/
theorem step_ports {s : State} {rst : Bool} {e : BitVec 9} {w : BitVec 3} (hdone : s.resetDone = true)
    (hin : s.nextInput = .clock rst e w) : ∃ t, step s = .next t ∧
      t.encInReady = encInReadyWire s rst ∧ t.encIn = encInTransfer s rst e ∧ t.encOut = encOutTransfer s rst ∧
      t.decIn = decInTransfer rst w ∧ t.decOut = decOutTransfer s rst w ∧ t.boundary = (rst || dcmdLast w) := by
  cases rst with
  | true => exact ⟨_, step_reset hin, rfl, by simp [encInTransfer, encInReadyWire], rfl, rfl, rfl, rfl⟩
  | false =>
    refine ⟨_, step_clock hdone hin, ?_⟩
    obtain ⟨-, -, fready, fein, feout, -⟩ := decAfter_frame w (encAfter e s.beginStep)
    obtain ⟨-, -, fdin, fdout, fbound⟩ := decAfter_encAfter_dec w e s.beginStep
    obtain ⟨hready, hein, heout⟩ := encAfter_ports e s.beginStep
    obtain ⟨hdin, hdout, hbound⟩ := decAfter_ports w s.beginStep
    exact ⟨fready.trans hready, fein.trans hein, feout.trans heout, fdin.trans hdin, fdout.trans hdout, fbound.trans hbound⟩

/-- Settles O33: the wires of Ports.lean are the port equations. -/
theorem cycleTransfersFollowThePortEquations : Obligations.CycleTransfersFollowThePortEquations :=
  fun _ _ _ _ _ hdone hin => step_ports hdone (nextInput_of_cons hin)

/-! ### The registers -/

/-- The encode channel's registers after an edge with `rst = 0`, as the collated step writes them. -/
theorem encAfter_registers (e : BitVec 9) (s : State) :
    ((encAfter e s).encSr, (encAfter e s).encCnt.val) =
      if s.encCnt.val = 0 then (if e.getLsbD 8 then (encodeByte (e.extractLsb' 0 8), 12) else (s.encSr, s.encCnt.val))
      else (s.encSr.extractLsb' 0 11 ++ 0#1, s.encCnt.val - 1) := by
  change (_, _) = if _ then (if ecmdValid e = true then _ else _) else _
  obtain ⟨hcnt, he, h⟩ | ⟨hcnt, he, h⟩ | ⟨hcnt, h⟩ := encAfter_cases e s
  · rw [h, if_pos (encCnt_val_eq_zero_iff.mpr hcnt), if_pos he]
    rfl
  · rw [h, if_pos (encCnt_val_eq_zero_iff.mpr hcnt), if_neg (Bool.eq_false_iff.mp he)]
    rfl
  · rw [h, if_neg (mt encCnt_val_eq_zero_iff.mp hcnt), ← BitVec.setWidth_eq_extractLsb' (by decide)]
    rfl

/-- The decode channel's registers after an edge with `rst = 0`, as the collated step writes them. -/
theorem decAfter_registers (w : BitVec 3) (s : State) :
    ((decAfter w s).decSr, (decAfter w s).decCnt.val) =
      if w.getLsbD 1 then (0#11, 0)
      else if w.getLsbD 2 then
        (if s.decCnt.val = 11 then (0#11, 0)
         else (s.decSr.extractLsb' 0 10 ++ BitVec.ofBool (w.getLsbD 0), s.decCnt.val + 1))
      else (s.decSr, s.decCnt.val) := by
  rw [decAfter_eq]
  change (_, _) = if dcmdLast w = true then _ else if dcmdValid w = true then _ else _
  split
  · rfl
  · obtain ⟨hw, h⟩ | ⟨hw, hcnt, h⟩ | ⟨hw, hcnt, h⟩ := offerBit_cases w s
    · rw [h, if_neg (Bool.eq_false_iff.mp hw)]
      rfl
    · rw [h, if_pos hw, if_pos (decCnt_val_eq_eleven_iff.mpr hcnt)]
      rfl
    · rw [h, if_pos hw, if_neg (mt decCnt_val_eq_eleven_iff.mp hcnt), ← BitVec.setWidth_eq_extractLsb' (by decide),
        decEdge_decCnt, countUp_val hcnt]
      rfl

/-- Settles O34: a RESET clears the registers, and a running cycle has each channel's own edge. -/
theorem clockedStepMatchesTheCollation : Obligations.ClockedStepMatchesTheCollation := by
  intro s rst e w rest hdone hin
  have hrest : s.beginStep.inputs = rest := by rw [beginStep_inputs, hin, List.tail_cons]
  have hnext := nextInput_of_cons hin
  cases rst with
  | true => exact ⟨_, step_reset hnext, rfl, rfl, hrest, rfl, rfl, rfl⟩
  | false =>
    obtain ⟨fesr, fecnt, -, -, -, fdinputs, fdcode, fddec⟩ := decAfter_frame w (encAfter e s.beginStep)
    obtain ⟨-, -, -, -, -, feinputs, fecode, fedec⟩ := encAfter_frame e s.beginStep
    obtain ⟨fdsr, fdcnt, -⟩ := decAfter_encAfter_dec w e s.beginStep
    refine ⟨_, step_clock hdone hnext, ?_, ?_, fdinputs.trans (feinputs.trans hrest), fdcode.trans fecode, fddec.trans fedec,
      by simpa using hdone⟩
    · rw [fesr, fecnt]
      exact encAfter_registers e s.beginStep
    · rw [fdsr, fdcnt]
      exact decAfter_registers w s.beginStep

end Sys2Proof.Machine
end

section
/-! Runs by their last step: a run after a RESET is a run shorter by one and one step more, so what holds of the empty run and is kept by
every step holds of every run. -/

namespace Sys2Proof.Machine

/-- Induction over a run after a RESET: `P` of the states so far, the last of which, `s` at the start, is stepped from. -/
theorem observe_induction {P : List State → Prop} {s : State} (hdone : s.resetDone = true) (hnil : P [])
    (hsnoc : ∀ ts t, P ts → step (ts.getLastD s) = .next t → P (ts ++ [t])) (n : Nat) : P (observe n s) := by
  induction n generalizing P s with
  | zero => exact hnil
  | succ n ih =>
    obtain ⟨t, hs, htdone⟩ := step_of_resetDone hdone
    rw [observe_succ hs]
    refine ih (P := fun ts => P (t :: ts)) htdone (hsnoc [] t hnil hs) fun ts u hP hu => ?_
    exact hsnoc (t :: ts) u hP (by rwa [List.getLastD_cons])

/-- After a RESET no run stops early (R160). -/
theorem observe_length {s : State} (hdone : s.resetDone = true) (n : Nat) : (observe n s).length = n := by
  induction n generalizing s with
  | zero => rfl
  | succ n ih =>
    obtain ⟨t, hs, htdone⟩ := step_of_resetDone hdone
    rw [observe_succ hs, List.length_cons, ih htdone]

/-- What every step keeps holds of the last state of every run. -/
theorem observe_getLastD {P : State → Prop} {s : State} (hdone : s.resetDone = true) (hs : P s)
    (hstep : ∀ u t, P u → step u = .next t → P t) (n : Nat) : P ((observe n s).getLastD s) := by
  refine observe_induction (P := fun ts => P (ts.getLastD s)) hdone hs (fun ts t hP ht => ?_) n
  rw [List.getLastD_concat]
  exact hstep _ t hP ht

/-- What every step keeps holds of every state of every run. -/
theorem observe_forall {P : State → Prop} {s : State} (hdone : s.resetDone = true) (hs : P s)
    (hstep : ∀ u t, P u → step u = .next t → P t) (n : Nat) : ∀ u ∈ s :: observe n s, P u := by
  refine observe_induction (P := fun ts => ∀ u ∈ s :: ts, P u) hdone (List.forall_mem_singleton.mpr hs) (fun ts t hP ht => ?_) n
  have htP : P t := hstep _ t (hP _ List.getLastD_mem_cons) ht
  rw [← List.cons_append]
  exact List.forall_mem_append.mpr ⟨hP, List.forall_mem_singleton.mpr htP⟩

/-! ### The transfers of a run -/

@[simp] theorem encIns_append (ts us : List State) : encIns (ts ++ us) = encIns ts ++ encIns us := List.filterMap_append

@[simp] theorem encOuts_append (ts us : List State) : encOuts (ts ++ us) = encOuts ts ++ encOuts us := List.filterMap_append

@[simp] theorem decIns_append (ts us : List State) : decIns (ts ++ us) = decIns ts ++ decIns us := List.filterMap_append

@[simp] theorem decOuts_append (ts us : List State) : decOuts (ts ++ us) = decOuts ts ++ decOuts us := List.filterMap_append

/-- One state has at most one transfer of each kind. -/
theorem filterMap_singleton_eq_toList {α β : Type} (f : α → Option β) (a : α) : [a].filterMap f = (f a).toList := by
  cases h : f a <;> simp [h]

@[simp] theorem encIns_singleton (t : State) : encIns [t] = t.encIn.toList := filterMap_singleton_eq_toList ..

@[simp] theorem encOuts_singleton (t : State) : encOuts [t] = t.encOut.toList := filterMap_singleton_eq_toList ..

@[simp] theorem decIns_singleton (t : State) : decIns [t] = t.decIn.toList := filterMap_singleton_eq_toList ..

@[simp] theorem decOuts_singleton (t : State) : decOuts [t] = t.decOut.toList := filterMap_singleton_eq_toList ..

end Sys2Proof.Machine
end

section
/-! The encode channel's runs (42_codec_stream.md R139, 70_reset_and_hazards.md R187): what was put out and what is owed is the encoding
of what was accepted, and a codeword leaves in the twelve cycles after its byte. -/

namespace Sys2Proof.Machine

/-! ### The bits owed -/

/-- The bits of a whole codeword are owed right after its byte is accepted (R130). -/
theorem pendingBits_acceptByte (s : State) (d : Byte) : pendingBits (s.acceptByte d) = codewordBits (encodeByte d) :=
  List.take_of_length_le (codewordBits_length _).le

/-- The edge puts the bit that it puts out in front of the bits still owed, and adds the codeword of the byte it accepts. -/
theorem encAfter_owes (e : BitVec 9) (s : State) :
    (encAfter e s).encOut.toList ++ pendingBits (encAfter e s) = pendingBits s ++ encodeAll (encAfter e s).encIn.toList := by
  obtain ⟨hcnt, -, h⟩ | ⟨hcnt, -, h⟩ | ⟨hcnt, h⟩ := encAfter_cases e s <;> rw [h]
  · rw [pendingBits_acceptByte, pendingBits_idle hcnt]
    exact (List.append_nil _).symm
  · exact (List.append_nil _).symm
  · rw [pendingBits_shiftOut s hcnt]
    exact (List.append_nil _).symm

/-- Every step does, a combinational step because it touches nothing and a careful RESET because nothing is owed (R187). -/
theorem step_owes {s t : State} (hcare : s.CarefulReset) (hs : step s = .next t) :
    t.encOut.toList ++ pendingBits t = pendingBits s ++ encodeAll t.encIn.toList := by
  obtain ⟨d, -, rfl⟩ | ⟨c, -, rfl⟩ | ⟨e, w, hin, rfl⟩ | ⟨e, w, -, -, rfl⟩ := step_next_cases hs
  · exact (List.append_nil _).symm
  · exact (List.append_nil _).symm
  · rw [pendingBits_idle (hcare (hin ▸ rfl))]
    rfl
  · obtain ⟨hsr, hcnt, -, hin, hout, -⟩ := decAfter_frame w (encAfter e s.beginStep)
    rw [pendingBits_congr hsr hcnt, hin, hout]
    exact encAfter_owes e s.beginStep

/-- After the run `ts` from `s`, what was put out and what is owed is the encoding of what was accepted. -/
def OwesEncoding (s : State) (ts : List State) : Prop := encOuts ts ++ pendingBits (ts.getLastD s) = encodeAll (encIns ts)

theorem owesEncoding_concat {s t : State} {ts : List State} (h : OwesEncoding s ts) (hcare : (ts.getLastD s).CarefulReset)
    (hs : step (ts.getLastD s) = .next t) : OwesEncoding s (ts ++ [t]) := by
  unfold OwesEncoding at h ⊢
  rw [List.getLastD_concat, encOuts_append, encOuts_singleton, encIns_append, encIns_singleton, encodeAll_append,
    List.append_assoc, step_owes hcare hs, ← List.append_assoc, h]

/-- Settles O48, by induction over the run: every state stepped from is careful. -/
theorem carefulResetsAbandonNoCodeword : Obligations.CarefulResetsAbandonNoCodeword := by
  intro n s hdone hcnt
  refine observe_induction (P := fun ts => (∀ u ∈ s :: ts.dropLast, u.CarefulReset) → OwesEncoding s ts) hdone
    (fun _ => pendingBits_idle hcnt) (fun ts t ih hs hcare => ?_) n
  rw [List.dropLast_concat] at hcare
  have hrun : OwesEncoding s ts := ih fun u hu => hcare u (List.cons_subset_cons s (List.dropLast_subset ts) hu)
  exact owesEncoding_concat hrun (hcare _ List.getLastD_mem_cons) hs

/-! ### Runs without a RESET (R139) -/

/-- What holds of every entry to come, and of the idle cycle that follows the last one, holds of the next input (log 3). -/
theorem nextInput_of_forall {P : PortInput → Prop} {s : State} (h : ∀ p ∈ s.inputs, P p) (hidle : P Config.idleInput) :
    P s.nextInput := by
  unfold State.nextInput
  cases hin : s.inputs with
  | nil => exact hidle
  | cons p ps => exact h p (hin ▸ List.mem_cons_self)

/-- A run whose inputs assert no `rst` is careful. -/
theorem carefulReset_of_no_reset {s : State} (hdone : s.resetDone = true) (h : ∀ p ∈ s.inputs, p.isReset = false) (n : Nat) :
    ∀ u ∈ s :: observe n s, u.CarefulReset := by
  have hall : ∀ u ∈ s :: observe n s, ∀ p ∈ u.inputs, p.isReset = false :=
    observe_forall hdone h (fun u t hu hs p hp => hu p (List.mem_of_mem_tail (step_inputs hs ▸ hp))) n
  intro u hu hreset
  rw [nextInput_of_forall (hall u hu) rfl] at hreset
  cases hreset

/-! ### The twelve cycles of a codeword -/

theorem isRunning_iff {p : PortInput} : p.isRunning = true ↔ ∃ e w, p = .clock false e w := by
  cases p <;> simp [PortInput.isRunning]

/-- A busy channel in a running cycle: the encode channel's fields are those of the shift. -/
theorem step_shifts {s : State} (hdone : s.resetDone = true) (hrun : ∀ p ∈ s.inputs, p.isRunning = true) (hcnt : s.encCnt ≠ 0) :
    ∃ t, step s = .next t ∧ t.resetDone = true ∧ (∀ p ∈ t.inputs, p.isRunning = true) ∧
      t.encCnt = countDown s.encCnt ∧ t.encIn = none ∧ t.encOut = some (encOutBitWire s) ∧
      pendingBits s = encOutBitWire s :: pendingBits t := by
  obtain ⟨e, w, hin⟩ := isRunning_iff.mp (nextInput_of_forall hrun rfl)
  have hs := step_clock hdone hin
  obtain ⟨hsr, hcnt', -, hein, heout, -⟩ := decAfter_frame w (encAfter e s.beginStep)
  have hshift : encAfter e s.beginStep = s.beginStep.shiftOut := encAfter_of_busy (s := s.beginStep) hcnt e
  rw [hshift] at hs hsr hcnt' hein heout
  refine ⟨_, hs, by simpa [State.shiftOut] using hdone,
    fun p hp => hrun p (List.mem_of_mem_tail (step_inputs hs ▸ hp)), hcnt', hein, heout, ?_⟩
  rw [pendingBits_congr hsr hcnt']
  exact pendingBits_shiftOut s.beginStep hcnt

/-- A channel that owes `k` bits puts them out in the next `k` cycles, accepts nothing meanwhile, and counts down to idle. -/
theorem observe_shifts {k : Nat} {s : State} (hdone : s.resetDone = true) (hrun : ∀ p ∈ s.inputs, p.isRunning = true)
    (hcnt : s.encCnt.val = k) :
    (observe k s).map (·.encOut) = (pendingBits s).map some ∧ (observe k s).map (·.encIn) = List.replicate k none ∧
    (observe k s).map (·.encCnt.val) = (List.range k).reverse ∧ ((observe k s).getLastD s).encCnt = 0 := by
  induction k generalizing s with
  | zero =>
    have hidle := encCnt_val_eq_zero_iff.mp hcnt
    rw [pendingBits_idle hidle]
    exact ⟨rfl, rfl, rfl, hidle⟩
  | succ k ih =>
    have hbusy : s.encCnt ≠ 0 := mt encCnt_val_eq_zero_iff.mpr (by omega)
    obtain ⟨t, hs, htdone, htrun, htcnt, htin, htout, hpend⟩ := step_shifts hdone hrun hbusy
    have htval : t.encCnt.val = k := by rw [htcnt, countDown_val, hcnt, Nat.add_sub_cancel]
    obtain ⟨hout, hin, hcounts, hlast⟩ := ih htdone htrun htval
    rw [observe_succ hs, hpend, List.getLastD_cons]
    refine ⟨?_, ?_, ?_, hlast⟩
    · rw [List.map_cons, List.map_cons, hout, htout]
    · rw [List.map_cons, hin, htin, List.replicate_succ]
    · rw [List.map_cons, hcounts, htval, List.range_succ, List.reverse_concat]

/-- Every step keeps the encode channel's invariant (R28 b). -/
theorem step_encInv {s t : State} (h : s.EncInv) (hs : step s = .next t) : t.EncInv := by
  obtain ⟨d, -, rfl⟩ | ⟨c, -, rfl⟩ | ⟨e, w, -, rfl⟩ | ⟨e, w, -, -, rfl⟩ := step_next_cases hs
  · exact h
  · exact h
  · exact encInv_of_encSr_zero rfl
  · obtain ⟨hsr, hcnt, -⟩ := decAfter_frame w (encAfter e s.beginStep)
    exact (encInv_congr hsr hcnt).mpr (encAfter_encInv e h)

/-- A byte offered to an idle channel is accepted: its codeword is owed. -/
theorem step_accepts {s : State} {d : Byte} {w : BitVec 3} (hdone : s.resetDone = true) (hcnt : s.encCnt = 0)
    (hin : s.nextInput = .clock false (ecmdWord true d) w) :
    ∃ t, step s = .next t ∧ t.resetDone = true ∧ t.encCnt = 12 ∧ t.encIn = some d ∧ t.encOut = none ∧
      pendingBits t = codewordBits (encodeByte d) ∧ t.EncInv := by
  have hs := step_clock hdone hin
  obtain ⟨hsr, hcnt', -, hein, heout, -⟩ := decAfter_frame w (encAfter (ecmdWord true d) s.beginStep)
  have haccept : encAfter (ecmdWord true d) s.beginStep = s.beginStep.acceptByte d := by
    rw [encAfter_of_offered (s := s.beginStep) hcnt (ecmdValid_ecmdWord ..), ecmdData_ecmdWord]
  rw [haccept] at hs hsr hcnt' hein heout
  refine ⟨_, hs, by simpa [State.acceptByte] using hdone, hcnt', hein, heout, ?_, ?_⟩
  · rw [pendingBits_congr hsr hcnt', pendingBits_acceptByte]
  · exact (encInv_congr hsr hcnt').mpr (acceptByte_encInv _ d)

/-- Settles O36: a run without a RESET is careful, and a codeword's twelve cycles are the shifts of the bits it owes. -/
theorem encodeChannelRefinesEncodeAll : Obligations.EncodeChannelRefinesEncodeAll := by
  refine ⟨fun n s hdone hcnt hin => ?_, fun s d w rest hdone hcnt hin hrun => ?_⟩
  · intro ts t
    have hcare := carefulReset_of_no_reset hdone hin n
    have howes : OwesEncoding s ts := carefulResetsAbandonNoCodeword n s hdone hcnt fun u hu =>
      hcare u (List.cons_subset_cons s (List.dropLast_subset ts) hu)
    refine ⟨observe_length hdone n, howes, ⟨_, howes⟩, fun hidle => ?_⟩
    rw [OwesEncoding, pendingBits_idle hidle, List.append_nil] at howes
    exact howes
  · obtain ⟨t, hs, htdone, htcnt, htin, htout, hpend, hinv⟩ := step_accepts hdone hcnt (nextInput_of_cons hin)
    have htrun : ∀ p ∈ t.inputs, p.isRunning = true := by rwa [step_inputs hs, hin, List.tail_cons]
    have htval : t.encCnt.val = 12 := congrArg Fin.val htcnt
    obtain ⟨hout, hein, hcounts, hlast⟩ := observe_shifts htdone htrun htval
    rw [observe_succ hs, List.getLastD_cons]
    refine ⟨?_, ?_, ?_, ?_⟩
    · rw [List.map_cons, hout, htout, hpend]
    · rw [List.map_cons, hein, htin]
    · rw [List.map_cons, hcounts, htval]
      rfl
    · exact encSr_zero_of_idle (observe_getLastD htdone hinv (fun _ _ => step_encInv) 12) hlast

end Sys2Proof.Machine
end

section
/-! The decode channel's runs (42_codec_stream.md R140, R141): the run cut at its boundaries, each stream followed bit by bit. -/

namespace Sys2Proof.Machine

/-! ### Cutting a run one step longer -/

/-- One step more joins the last stream, and opens an empty one where a boundary falls after it (R141). -/
theorem exists_cutStreams_concat (ts : List State) (t : State) : ∃ init g, cutStreams ts = init ++ [g] ∧
    cutStreams (ts ++ [t]) = init ++ (g ++ [t]) :: (if t.boundary then [[]] else []) := by
  induction ts with
  | nil =>
    refine ⟨[], [], rfl, ?_⟩
    cases hb : t.boundary <;> simp [cutStreams, hb]
  | cons u us ih =>
    obtain ⟨init, g, hcut, hcut'⟩ := ih
    cases hb : u.boundary
    · cases init with
      | nil => exact ⟨[], u :: g, by simp [cutStreams, hb, hcut], by simp [cutStreams, hb, hcut']⟩
      | cons h init => exact ⟨(u :: h) :: init, g, by simp [cutStreams, hb, hcut], by simp [cutStreams, hb, hcut']⟩
    · exact ⟨[u] :: init, g, by simp [cutStreams, hb, hcut], by simp [cutStreams, hb, hcut']⟩

/-! ### What a step does to the chunk -/

/-- From `s` to `t` a twelfth bit completes the block, which is put out (R135). -/
def State.Completes (s t : State) : Prop :=
  s.decCnt = 11 ∧ t.decCnt = 0 ∧ ∃ b, t.decIn = some b ∧ t.decOut = some (decodedOf (decBlock s b))

/-- From `s` to `t` nothing is put out: the bit taken, if any, does not complete a block, and joins the chunk unless a boundary
discards it (R134 to R137). -/
def State.Extends (s t : State) : Prop :=
  t.decOut = none ∧ (storedBits s ++ t.decIn.toList).length < 12 ∧
    (t.boundary = false → storedBits t = storedBits s ++ t.decIn.toList)

/-- A chunk is shorter than a block. -/
theorem storedBits_length_lt (s : State) : (storedBits s).length < 12 := by
  rw [storedBits_length]
  exact s.decCnt.isLt

/-- A step that takes no bit and puts nothing out extends the chunk by nothing. -/
theorem extends_of_no_bit {s t : State} (hin : t.decIn = none) (hout : t.decOut = none)
    (hkeep : t.boundary = false → storedBits t = storedBits s) : s.Extends t := by
  refine ⟨hout, ?_, fun hb => ?_⟩
  · rw [hin, Option.toList_none, List.append_nil]
    exact storedBits_length_lt s
  · rw [hin, Option.toList_none, List.append_nil, hkeep hb]

/-- The edge of the decode channel completes the block or extends the chunk. -/
theorem decAfter_chunk (w : BitVec 3) (s : State) : s.Completes (decAfter w s) ∨ s.Extends (decAfter w s) := by
  rw [decAfter_eq]
  obtain ⟨-, h⟩ | ⟨-, hcnt, h⟩ | ⟨hw, hcnt, h⟩ := offerBit_cases w s
  · right
    rw [h]
    split
    · exact extends_of_no_bit rfl rfl (fun hb => by cases hb)
    · exact extends_of_no_bit rfl rfl (fun _ => rfl)
  · left
    rw [h]
    split <;> exact ⟨hcnt, rfl, _, rfl, rfl⟩
  · right
    have hlen : (storedBits s ++ [dcmdBit w]).length < 12 := by
      have hne := mt decCnt_val_eq_eleven_iff.mp hcnt
      have hlt := s.decCnt.isLt
      rw [List.length_append, storedBits_length, List.length_singleton]
      omega
    split
    · rw [h]
      exact ⟨rfl, hlen, fun hb => by cases hb⟩
    · have htake : s.offerBit w = s.takeBit (dcmdBit w) := if_pos hw
      refine ⟨by rw [h]; rfl, by rw [h]; exact hlen, fun _ => ?_⟩
      rw [htake, storedBits_takeBit s _ hcnt, ← htake, h]
      rfl

/-- A boundary leaves an empty chunk (R141). -/
theorem decAfter_empty_of_boundary {w : BitVec 3} {s : State} (h : (decAfter w s).boundary = true) : (decAfter w s).decCnt = 0 := by
  obtain ⟨-, -, hbound⟩ := decAfter_ports w s
  rw [decAfter_eq, if_pos (hbound ▸ h)]
  rfl

/-- What becomes of the chunk depends on the decode channel's registers before the step alone (R126). -/
theorem completes_or_extends_congr {s s' t : State} (hsr : s'.decSr = s.decSr) (hcnt : s'.decCnt = s.decCnt) :
    s'.Completes t ∨ s'.Extends t ↔ s.Completes t ∨ s.Extends t := by
  simp only [State.Completes, State.Extends, storedBits_congr hsr hcnt, decBlock, hsr, hcnt]

/-- Every step completes the block or extends the chunk. -/
theorem step_chunk {s t : State} (hs : step s = .next t) : s.Completes t ∨ s.Extends t := by
  obtain ⟨d, -, rfl⟩ | ⟨c, -, rfl⟩ | ⟨e, w, -, rfl⟩ | ⟨e, w, -, -, rfl⟩ := step_next_cases hs
  · exact .inr (extends_of_no_bit rfl rfl fun _ => rfl)
  · exact .inr (extends_of_no_bit rfl rfl fun _ => rfl)
  · exact .inr (extends_of_no_bit rfl rfl fun hb => by cases hb)
  · obtain ⟨hsr, hcnt, -⟩ := encAfter_frame e s.beginStep
    exact (completes_or_extends_congr hsr hcnt).mp (decAfter_chunk w (encAfter e s.beginStep))

/-- After every step at which a boundary falls the chunk is empty. -/
theorem step_empty_of_boundary {s t : State} (hs : step s = .next t) (hb : t.boundary = true) : t.decCnt = 0 := by
  obtain ⟨d, -, rfl⟩ | ⟨c, -, rfl⟩ | ⟨e, w, -, rfl⟩ | ⟨e, w, -, -, rfl⟩ := step_next_cases hs
  · cases hb
  · cases hb
  · rfl
  · exact decAfter_empty_of_boundary hb

/-! ### One stream -/

/-- The bits `x` of a stream are whole blocks and then the bits that `s` has stored. -/
def State.Keeps (s : State) (x : List Bit) : Prop := ∃ whole, whole.length % 12 = 0 ∧ x = whole ++ storedBits s

theorem keeps_nil {s : State} (h : s.decCnt = 0) : s.Keeps [] := ⟨[], rfl, by rw [storedBits_empty h, List.append_nil]⟩

/-- The count and the stored bits, by the stream's bits (R140). -/
theorem decCnt_storedBits_of_keeps {s : State} {x : List Bit} (h : s.Keeps x) :
    s.decCnt.val = x.length % 12 ∧ storedBits s = x.drop (x.length - s.decCnt.val) := by
  obtain ⟨whole, hwhole, rfl⟩ := h
  have hlt := s.decCnt.isLt
  rw [List.length_append, storedBits_length, Nat.add_sub_cancel, List.drop_left]
  exact ⟨by omega, rfl⟩

/-- What is left after whole blocks decodes to nothing while it is short (R47). -/
theorem decodeAllX_append_short {whole y : List Bit} (h : whole.length % 12 = 0) (hy : y.length < 12) :
    decodeAllX (whole ++ y) = decodeAllX whole := by
  rw [decodeAllX_append _ _ h, decodeAllX_of_short hy, List.append_nil]

@[simp] theorem decodeAllX_nil : decodeAllX [] = [] := decodeAllX_of_short (by decide)

/-- The pair that `DECALLX` gives for an output. -/
def Decoded.pair (o : Decoded) : Byte × Syndrome := (o.data, o.errPos)

/-- A twelfth bit adds the pair of the output to `DECALLX`. -/
theorem decodeAllX_of_completes {s t : State} {x : List Bit} (hx : s.Keeps x) (h : s.Completes t) :
    t.decOut.isSome = true ∧ t.decIn.isSome = true ∧ (x ++ t.decIn.toList).length % 12 = 0 ∧
    decodeAllX (x ++ t.decIn.toList) = decodeAllX x ++ t.decOut.toList.map Decoded.pair ∧ t.Keeps (x ++ t.decIn.toList) := by
  obtain ⟨whole, hwhole, rfl⟩ := hx
  obtain ⟨hcnt, htcnt, b, hin, hout⟩ := h
  have hlen : (storedBits s ++ [b]).length = 12 := by
    rw [List.length_append, storedBits_length, hcnt]
    rfl
  have hblock : decodeAllX (storedBits s ++ [b]) = [decodeBlock (decBlock s b)] := by
    have hfront := decodeAllX_block hlen []
    rwa [List.append_nil, chunk_storedBits s b hcnt, decodeAllX_nil] at hfront
  have hall : (whole ++ (storedBits s ++ [b])).length % 12 = 0 := by
    rw [List.length_append, hlen]
    omega
  rw [hin, hout, Option.toList_some, Option.toList_some, List.append_assoc]
  refine ⟨rfl, rfl, hall, ?_, _, hall, by rw [storedBits_empty htcnt, List.append_nil]⟩
  rw [decodeAllX_append _ _ hwhole, hblock, decodeAllX_append_short hwhole (storedBits_length_lt s)]
  rfl

/-- Any other step adds nothing to `DECALLX`. -/
theorem decodeAllX_of_extends {s t : State} {x : List Bit} (hx : s.Keeps x) (h : s.Extends t) :
    t.decOut = none ∧ (t.decIn.isSome = true → (x ++ t.decIn.toList).length % 12 ≠ 0) ∧
    decodeAllX (x ++ t.decIn.toList) = decodeAllX x ∧ (t.boundary = false → t.Keeps (x ++ t.decIn.toList)) := by
  obtain ⟨whole, hwhole, rfl⟩ := hx
  obtain ⟨hout, hlen, hstored⟩ := h
  rw [List.append_assoc]
  refine ⟨hout, fun hsome => ?_, ?_, fun hb => ⟨whole, hwhole, by rw [hstored hb]⟩⟩
  · obtain ⟨b, hin⟩ := Option.isSome_iff_exists.mp hsome
    rw [hin, Option.toList_some, List.length_append] at hlen
    rw [hin, Option.toList_some, List.length_append, List.length_append]
    rw [List.length_singleton] at hlen ⊢
    omega
  · rw [decodeAllX_append_short hwhole hlen, decodeAllX_append_short hwhole (storedBits_length_lt s)]

/-- Every step adds its output to `DECALLX` of the stream's bits, has one exactly when it takes a twelfth bit, and keeps the chunk
unless a boundary falls. -/
theorem step_decodes {s t : State} {x : List Bit} (hx : s.Keeps x) (hs : step s = .next t) :
    decodeAllX (x ++ t.decIn.toList) = decodeAllX x ++ t.decOut.toList.map Decoded.pair ∧
    (t.decOut.isSome = true ↔ t.decIn.isSome = true ∧ (x ++ t.decIn.toList).length % 12 = 0) ∧
    (t.boundary = false → t.Keeps (x ++ t.decIn.toList)) := by
  obtain h | h := step_chunk hs
  · obtain ⟨hout, hin, hlen, hdec, hkeep⟩ := decodeAllX_of_completes hx h
    exact ⟨hdec, iff_of_true hout ⟨hin, hlen⟩, fun _ => hkeep⟩
  · obtain ⟨hout, hlen, hdec, hkeep⟩ := decodeAllX_of_extends hx h
    rw [hdec, hout]
    exact ⟨(List.append_nil _).symm, iff_of_false Bool.false_ne_true fun ⟨hin, hmod⟩ => hlen hin hmod, hkeep⟩

/-- A stream, also while it goes on: its outputs are `DECALLX` of its bits, each in the cycle of a twelfth bit (R140). -/
structure StreamDecodes (g : List State) : Prop where
  outputs : (decOuts g).map Decoded.pair = decodeAllX (decIns g)
  timing : ∀ a b u, g = a ++ u :: b →
    (u.decOut.isSome = true ↔ u.decIn.isSome = true ∧ (decIns (a ++ [u])).length % 12 = 0)

theorem streamDecodes_nil : StreamDecodes [] where
  outputs := decodeAllX_nil.symm
  timing a b u h := by
    cases a <;> cases h

/-- A stream that decodes goes on to do so. -/
theorem streamDecodes_concat {g : List State} {s t : State} (hg : StreamDecodes g) (hkeep : s.Keeps (decIns g))
    (hs : step s = .next t) : StreamDecodes (g ++ [t]) := by
  obtain ⟨hdec, htime, -⟩ := step_decodes hkeep hs
  rw [← decIns_singleton, ← decIns_append] at hdec htime
  refine ⟨?_, fun a b u hab => ?_⟩
  · rw [decOuts_append, decOuts_singleton, List.map_append, hg.outputs, hdec]
  · obtain rfl | ⟨b, v, rfl⟩ := b.eq_nil_or_concat'
    · obtain ⟨rfl, hut⟩ := List.append_inj' hab rfl
      rw [← List.singleton_inj.mp hut]
      exact htime
    · rw [← List.cons_append, ← List.append_assoc] at hab
      exact hg.timing a b u (List.append_inj' hab rfl).1

/-! ### All streams of a run -/

/-- The run `ts` from `s`, cut: every stream decodes, and the chunk is that of the last one. -/
def StreamsDecode (s : State) (ts : List State) : Prop :=
  (∀ g ∈ cutStreams ts, StreamDecodes g) ∧ (ts.getLastD s).Keeps (decIns ((cutStreams ts).getLastD []))

/-- Every run from an empty chunk, by induction over it. -/
theorem observe_streamsDecode {s : State} (hdone : s.resetDone = true) (hcnt : s.decCnt = 0) (n : Nat) :
    StreamsDecode s (observe n s) := by
  refine observe_induction (P := StreamsDecode s) hdone ⟨?_, keeps_nil hcnt⟩ (fun ts t ih hs => ?_) n
  · exact List.forall_mem_singleton.mpr streamDecodes_nil
  · obtain ⟨hall, hkeep⟩ := ih
    obtain ⟨init, g, hcut, hcut'⟩ := exists_cutStreams_concat ts t
    rw [hcut] at hall hkeep
    rw [List.getLastD_concat] at hkeep
    obtain ⟨hinit, hg⟩ := List.forall_mem_append.mp hall
    have hgt := streamDecodes_concat (hg g List.mem_cons_self) hkeep hs
    rw [StreamsDecode, hcut', List.getLastD_concat]
    cases hb : t.boundary
    · refine ⟨List.forall_mem_append.mpr ⟨hinit, List.forall_mem_singleton.mpr hgt⟩, ?_⟩
      obtain ⟨-, -, htkeep⟩ := step_decodes hkeep hs
      rw [if_neg Bool.false_ne_true, List.getLastD_concat, decIns_append, decIns_singleton]
      exact htkeep hb
    · refine ⟨List.forall_mem_append.mpr ⟨hinit, ?_⟩, ?_⟩
      · exact List.forall_mem_cons.mpr ⟨hgt, List.forall_mem_singleton.mpr streamDecodes_nil⟩
      · rw [if_pos rfl, ← List.singleton_append, ← List.append_assoc, List.getLastD_concat]
        exact keeps_nil (step_empty_of_boundary hs hb)

/-- Settles O37: every stream of the run decodes, and the chunk is that of the current one. -/
theorem decodeChannelRefinesDecodeAllX : Obligations.DecodeChannelRefinesDecodeAllX := by
  intro n s hdone hcnt ts t x
  obtain ⟨hall, hkeep⟩ := observe_streamsDecode hdone hcnt n
  obtain ⟨hval, hstored⟩ := decCnt_storedBits_of_keeps hkeep
  refine ⟨observe_length hdone n, fun g hg => ?_, hval, hstored⟩
  obtain ⟨houts, htime⟩ := hall g hg
  refine ⟨houts, ?_, ?_, htime⟩
  · rw [decodeAll, ← houts, List.map_map]
    rfl
  · rw [← decodeAllX_length, ← houts, List.length_map]

end Sys2Proof.Machine
end

section
/-! Loop-back (42_codec_stream.md R142): with the encode channel's output wired to the decode channel's input, the bits of the current
codeword are divided between the two registers, so each codeword arrives with its one inverted position and is decoded. -/

namespace Sys2Proof.Machine

/-! ### The two registers as bits of a codeword -/

@[simp] theorem pendingBits_length (s : State) : (pendingBits s).length = s.encCnt.val := by
  have hlt := s.encCnt.isLt
  rw [pendingBits, List.length_take, codewordBits_length]
  omega

theorem pendingBits_eq_nil_iff {s : State} : pendingBits s = [] ↔ s.encCnt = 0 := by
  rw [← List.length_eq_zero_iff, pendingBits_length, encCnt_val_eq_zero_iff]

theorem storedBits_eq_nil_iff {s : State} : storedBits s = [] ↔ s.decCnt = 0 := by
  rw [← List.length_eq_zero_iff, storedBits_length]
  exact (Fin.ext_iff (a := s.decCnt) (b := 0)).symm

/-- The first `k + 1` bits of a codeword are the first `k` and position `k + 1`. -/
theorem take_succ_codewordBits (c : Codeword) {k : Nat} (h : k < 12) :
    (codewordBits c).take (k + 1) = (codewordBits c).take k ++ [pos c (k + 1)] := by
  rw [List.take_add_one, codewordBits_getElem? c h, Option.toList_some]

/-- The bits from position `k + 1` on are that position and the bits from `k + 2` on. -/
theorem drop_codewordBits (c : Codeword) {k : Nat} (h : k < 12) :
    (codewordBits c).drop k = pos c (k + 1) :: (codewordBits c).drop (k + 1) := by
  have hlt : k < (codewordBits c).length := by rwa [codewordBits_length]
  have hget := codewordBits_getElem? c h
  rw [List.getElem?_eq_getElem hlt, Option.some_inj] at hget
  rw [List.drop_eq_getElem_cons hlt, hget]

/-! ### One cycle of the loop -/

/-- The bit on the wire from the encode to the decode channel, inverted where it leaves as position `q` (R142). -/
def loopBit (s : State) (q : Nat) : Bit := encOutBitWire s ^^ (decide (q ≠ 0) && decide (s.encCnt.val + q = 13))

/-- The bit that leaves as position `k + 1` arrives as that position of the codeword with position `q` inverted. -/
theorem loopBit_eq {s : State} {c : Codeword} {k : Nat} (q : Nat) (hk : k + s.encCnt.val = 12) (hlt : k < 12)
    (hbit : encOutBitWire s = pos c (k + 1)) : loopBit s q = pos (flipPos c q) (k + 1) := by
  have hinv : (decide (q ≠ 0) && decide (s.encCnt.val + q = 13)) = decide (k + 1 = q) := by
    rw [← Bool.decide_and, decide_eq_decide]
    omega
  rw [loopBit, hinv, hbit, pos_flipPos c ⟨by omega, by omega⟩]

/-- The state with the loop's input ports of the cycle. -/
def State.looped (s : State) (e : BitVec 9) (q : Nat) : State := { s with inputs := [loopInput s e q] }

theorem loopStep_eq (s : State) (e : BitVec 9) (q : Nat) : loopStep s e q = step (s.looped e q) := rfl

theorem nextInput_looped (s : State) (e : BitVec 9) (q : Nat) :
    (s.looped e q).nextInput = .clock false e (dcmdWord (encOutValidWire s false) false (loopBit s q)) := rfl

/-- A cycle of the loop: what the encode channel accepts, what it owes, and what becomes of the chunk. -/
theorem loopStep_next {s : State} (hdone : s.resetDone = true) (e : BitVec 9) (q : Nat) : ∃ t, loopStep s e q = .next t ∧
    t.resetDone = true ∧ t.encIn = encInTransfer s false e ∧
    (encOutTransfer s false).toList ++ pendingBits t = pendingBits s ++ encodeAll t.encIn.toList ∧
    t.decIn = (if encOutValidWire s false then some (loopBit s q) else none) ∧ t.boundary = false ∧
    (s.Completes t ∨ s.Extends t) := by
  have hlooped : (s.looped e q).resetDone = true := hdone
  have hin := nextInput_looped s e q
  obtain ⟨t, hs, -, hein, heout, hdin, -, hbound⟩ := step_ports hlooped hin
  obtain ⟨t', hs', htdone⟩ := step_of_resetDone hlooped
  obtain rfl : t' = t := Host.Outcome.next.inj (hs'.symm.trans hs)
  obtain ⟨hvalid, hlast, hbit⟩ := dcmd_dcmdWord (encOutValidWire s false) false (loopBit s q)
  have hcare : (s.looped e q).CarefulReset := fun hreset => by
    rw [hin] at hreset
    cases hreset
  have howes := step_owes hcare hs
  have hchunk := step_chunk hs
  rw [heout] at howes
  rw [decInTransfer, hvalid, hbit] at hdin
  exact ⟨t', (loopStep_eq s e q).trans hs, htdone, hein, howes, hdin, hbound.trans hlast, hchunk⟩

/-- An idle channel loops nothing back: the chunk is kept, and what is owed is the codeword of the byte accepted, if any. -/
theorem loopStep_idle {s : State} (hdone : s.resetDone = true) (hcnt : s.encCnt = 0) (e : BitVec 9) (q : Nat) :
    ∃ t, loopStep s e q = .next t ∧ t.resetDone = true ∧ t.encIn = (if ecmdValid e then some (ecmdData e) else none) ∧
      pendingBits t = encodeAll t.encIn.toList ∧ t.decOut = none ∧ storedBits t = storedBits s := by
  have hidle : s.encIdle = true := encIdle_iff.mpr hcnt
  obtain ⟨t, hs, htdone, hein, howes, hdin, hbound, hchunk⟩ := loopStep_next hdone e q
  have hno : encOutValidWire s false = false := by simp [encOutValidWire, hidle]
  rw [hno, if_neg Bool.false_ne_true] at hdin
  rw [encOutTransfer, hno, if_neg Bool.false_ne_true, pendingBits_idle hcnt] at howes
  refine ⟨t, hs, htdone, by simp [hein, encInTransfer, encInReadyWire, hidle], howes, ?_⟩
  obtain ⟨-, -, b, hsome, -⟩ | ⟨hout, -, hkeep⟩ := hchunk
  · rw [hdin] at hsome
    cases hsome
  · rw [hdin, Option.toList_none, List.append_nil] at hkeep
    exact ⟨hout, hkeep hbound⟩

/-- A busy channel accepts nothing and loops its first bit owed back into the chunk. -/
theorem loopStep_busy {s : State} (hdone : s.resetDone = true) (hcnt : s.encCnt ≠ 0) (e : BitVec 9) (q : Nat) :
    ∃ t, loopStep s e q = .next t ∧ t.resetDone = true ∧ t.encIn = none ∧ pendingBits s = encOutBitWire s :: pendingBits t ∧
      t.decIn = some (loopBit s q) ∧ t.boundary = false ∧ (s.Completes t ∨ s.Extends t) := by
  have hbusy : s.encIdle = false := Bool.eq_false_iff.mpr (mt encIdle_iff.mp hcnt)
  obtain ⟨t, hs, htdone, hein, howes, hdin, hbound, hchunk⟩ := loopStep_next hdone e q
  have hvalid : encOutValidWire s false = true := by simp [encOutValidWire, hbusy]
  have hnone : t.encIn = none := by simp [hein, encInTransfer, encInReadyWire, hbusy]
  rw [hvalid, if_pos rfl] at hdin
  rw [encOutTransfer, hvalid, if_pos rfl, hnone, Option.toList_none, encodeAll_nil, List.append_nil] at howes
  exact ⟨t, hs, htdone, hnone, howes.symm, hdin, hbound, hchunk⟩

/-- A cycle of a run whose step answers. -/
theorem cycle_of_next {r : LoopRun} {e : BitVec 9} {p : Nat → Nat} {t : State}
    (h : loopStep r.state e (p (r.accepted.length - 1)) = .next t) :
    r.cycle e p = ⟨t, r.accepted ++ t.encIn.toList, r.decoded ++ t.decOut.toList⟩ := by
  rw [LoopRun.cycle, h]

/-! ### The codeword under way -/

/-- The output for byte `b` of codeword `k`, with position `p k` inverted on the way (R142). -/
def loopOutput (p : Nat → Nat) (k : Nat) (b : Byte) : Decoded :=
  ⟨b, BitVec.ofNat 4 (p k), if p k = 0 then 0b00#2 else 0b01#2⟩

/-- A codeword with one position inverted, or none, is put out as its byte with that position and status (R106). -/
theorem decodedOf_flipPos_encodeByte {p : Nat → Nat} {k : Nat} (b : Byte) (h : p k ≤ 12) :
    decodedOf (flipPos (encodeByte b) (p k)) = loopOutput p k b := by
  have hval : (BitVec.ofNat 4 (p k)).toNat = p k := by
    rw [BitVec.toNat_ofNat]
    omega
  rw [decodedOf, decodeBlock_flipPos_encodeByte b h, statusOf_eq_ite, hval, if_pos h]
  rfl

/-- The codeword of `b`, with position `q` inverted, is under way: its first `k` bits are stored and the others owed. -/
def State.Carries (s : State) (b : Byte) (q k : Nat) : Prop :=
  storedBits s = (codewordBits (flipPos (encodeByte b) q)).take k ∧ pendingBits s = (codewordBits (encodeByte b)).drop k

/-- The counters while a codeword is under way. -/
theorem counters_of_carries {s : State} {b : Byte} {q k : Nat} (h : s.Carries b q k) (hk : k < 12) :
    s.decCnt.val = k ∧ k + s.encCnt.val = 12 := by
  obtain ⟨hstored, hpend⟩ := h
  have hdec := congrArg List.length hstored
  have henc := congrArg List.length hpend
  rw [storedBits_length, List.length_take, codewordBits_length] at hdec
  rw [pendingBits_length, List.length_drop, codewordBits_length] at henc
  omega

/-- While a codeword is under way the encode channel is busy. -/
theorem encCnt_ne_zero_of_carries {s : State} {b : Byte} {q k : Nat} (h : s.Carries b q k) (hk : k < 12) : s.encCnt ≠ 0 := by
  obtain ⟨-, henc⟩ := counters_of_carries h hk
  exact mt encCnt_val_eq_zero_iff.mpr (by omega)

/-- A busy cycle passes one bit on: the twelfth puts the codeword out, any other leaves it under way. -/
theorem loopStep_carries {s : State} {b : Byte} {q k : Nat} (hdone : s.resetDone = true) (hcarry : s.Carries b q k) (hk : k < 12)
    (e : BitVec 9) :
    ∃ t, loopStep s e q = .next t ∧ t.resetDone = true ∧ t.encIn = none ∧
      ((k = 11 ∧ t.decOut = some (decodedOf (flipPos (encodeByte b) q)) ∧ t.encCnt = 0 ∧ t.decCnt = 0) ∨
      (t.decOut = none ∧ k + 1 < 12 ∧ t.Carries b q (k + 1))) := by
  have hcnt := encCnt_ne_zero_of_carries hcarry hk
  obtain ⟨hdec, henc⟩ := counters_of_carries hcarry hk
  obtain ⟨hstored, hpend⟩ := hcarry
  obtain ⟨t, hs, htdone, hein, howes, hdin, hbound, hchunk⟩ := loopStep_busy hdone hcnt e q
  rw [hpend, drop_codewordBits _ hk] at howes
  obtain ⟨hbit, htpend⟩ := List.cons.inj howes
  have hjoin : storedBits s ++ [loopBit s q] = (codewordBits (flipPos (encodeByte b) q)).take (k + 1) := by
    rw [hstored, loopBit_eq q henc hk hbit.symm, take_succ_codewordBits _ hk]
  refine ⟨t, hs, htdone, hein, ?_⟩
  obtain ⟨heleven, htcnt, b', hb', hout⟩ | ⟨hout, hlen, hkeep⟩ := hchunk
  · obtain rfl : loopBit s q = b' := Option.some.inj (hdin.symm.trans hb')
    have hk11 : k = 11 := hdec.symm.trans (decCnt_val_eq_eleven_iff.mpr heleven)
    subst hk11
    have hblock : decBlock s (loopBit s q) = flipPos (encodeByte b) q := by
      have hchunk := chunk_codewordBits_append (flipPos (encodeByte b) q) []
      rw [List.append_nil] at hchunk
      rw [← chunk_storedBits s _ heleven, hjoin, List.take_of_length_le (codewordBits_length _).le, hchunk]
    refine .inl ⟨rfl, by rw [hout, hblock], ?_, htcnt⟩
    rw [← pendingBits_eq_nil_iff, ← htpend]
    exact List.drop_of_length_le (codewordBits_length _).le
  · rw [hdin, Option.toList_some, hjoin] at hlen hkeep
    rw [List.length_take, codewordBits_length] at hlen
    exact .inr ⟨hout, by omega, hkeep hbound, htpend.symm⟩

/-! ### The runs -/

/-- Between two codewords: the bytes accepted, `done`, have all come out, and both channels are empty. -/
structure LoopIdle (p : Nat → Nat) (r : LoopRun) (done : List Byte) : Prop where
  resetDone : r.state.resetDone = true
  accepted : r.accepted = done
  decoded : r.decoded = done.mapIdx (loopOutput p)
  encCnt : r.state.encCnt = 0
  decCnt : r.state.decCnt = 0

/-- Within a codeword: the bytes `done` have come out, and `k` bits of the codeword of the last one accepted, `b`, have arrived. -/
structure LoopBusy (p : Nat → Nat) (r : LoopRun) (done : List Byte) (b : Byte) (k : Nat) : Prop where
  resetDone : r.state.resetDone = true
  accepted : r.accepted = done ++ [b]
  decoded : r.decoded = done.mapIdx (loopOutput p)
  lt_twelve : k < 12
  carries : r.state.Carries b (p done.length) k

theorem loopIdle_reset (p : Nat → Nat) : LoopIdle p ⟨State.reset, [], []⟩ [] := ⟨rfl, rfl, rfl, rfl, rfl⟩

/-- An idle cycle without an offer changes nothing. -/
theorem cycle_not_offered {p : Nat → Nat} {r : LoopRun} {done : List Byte} (h : LoopIdle p r done) {e : BitVec 9}
    (he : ecmdValid e = false) : LoopIdle p (r.cycle e p) done := by
  obtain ⟨hdone, hacc, hdec, hecnt, hdcnt⟩ := h
  obtain ⟨t, hs, htdone, hein, hpend, hdout, hstored⟩ := loopStep_idle hdone hecnt e (p (r.accepted.length - 1))
  rw [he, if_neg Bool.false_ne_true] at hein
  rw [cycle_of_next hs, hein, hdout, Option.toList_none, Option.toList_none, List.append_nil, List.append_nil]
  rw [hein] at hpend
  exact ⟨htdone, hacc, hdec, pendingBits_eq_nil_iff.mp hpend,
    storedBits_eq_nil_iff.mp (hstored.trans (storedBits_empty hdcnt))⟩

/-- An idle cycle with an offer puts the byte's codeword under way. -/
theorem cycle_offered {p : Nat → Nat} {r : LoopRun} {done : List Byte} (h : LoopIdle p r done) {e : BitVec 9}
    (he : ecmdValid e = true) : LoopBusy p (r.cycle e p) done (ecmdData e) 0 := by
  obtain ⟨hdone, hacc, hdec, hecnt, hdcnt⟩ := h
  obtain ⟨t, hs, htdone, hein, hpend, hdout, hstored⟩ := loopStep_idle hdone hecnt e (p (r.accepted.length - 1))
  rw [he, if_pos rfl] at hein
  rw [hein, Option.toList_some, encodeAll_cons, encodeAll_nil, List.append_nil] at hpend
  rw [cycle_of_next hs, hein, hdout, Option.toList_none, Option.toList_some, List.append_nil, hacc]
  exact ⟨htdone, rfl, hdec, by decide, hstored.trans (storedBits_empty hdcnt), hpend⟩

section
variable {p : Nat → Nat} {r : LoopRun} {done : List Byte} {b : Byte} {k : Nat}

/-- A busy cycle before the twelfth bit leaves the codeword under way. -/
theorem cycle_busy (h : LoopBusy p r done b k) (hk : k + 1 < 12) (e : BitVec 9) : LoopBusy p (r.cycle e p) done b (k + 1) := by
  obtain ⟨hdone, hacc, hdec, hlt, hcarry⟩ := h
  have hindex : r.accepted.length - 1 = done.length := by rw [hacc, List.length_append, List.length_singleton, Nat.add_sub_cancel]
  obtain ⟨t, hs, htdone, hein, ⟨hk11, -⟩ | ⟨hout, -, htcarry⟩⟩ := loopStep_carries hdone hcarry hlt e
  · omega
  · rw [← hindex] at hs
    rw [cycle_of_next hs, hein, hout, Option.toList_none, Option.toList_none, List.append_nil, List.append_nil]
    exact ⟨htdone, hacc, hdec, hk, htcarry⟩

/-- The cycle of the twelfth bit puts the byte out, with the position inverted. -/
theorem cycle_twelfth (h : LoopBusy p r done b 11) (hp : p done.length ≤ 12) (e : BitVec 9) :
    LoopIdle p (r.cycle e p) (done ++ [b]) := by
  obtain ⟨hdone, hacc, hdec, hlt, hcarry⟩ := h
  have hindex : r.accepted.length - 1 = done.length := by rw [hacc, List.length_append, List.length_singleton, Nat.add_sub_cancel]
  obtain ⟨t, hs, htdone, hein, ⟨-, hout, hecnt, hdcnt⟩ | ⟨-, hlt12, -⟩⟩ := loopStep_carries hdone hcarry hlt e
  · rw [← hindex] at hs
    rw [cycle_of_next hs, hein, hout, Option.toList_none, Option.toList_some, List.append_nil]
    refine ⟨htdone, hacc, ?_, hecnt, hdcnt⟩
    rw [hdec, List.mapIdx_concat, decodedOf_flipPos_encodeByte b hp]
  · omega

end

/-- After every number of cycles the loop is between two codewords or within one. -/
theorem loopRun_idle_or_busy (e : Nat → BitVec 9) {p : Nat → Nat} (hp : ∀ k, p k ≤ 12) (n : Nat) :
    (∃ done, LoopIdle p (loopRun e p n) done) ∨ ∃ done b k, LoopBusy p (loopRun e p n) done b k := by
  induction n with
  | zero => exact .inl ⟨[], loopIdle_reset p⟩
  | succ n ih =>
    rw [loopRun]
    obtain ⟨done, h⟩ | ⟨done, b, k, h⟩ := ih
    · cases he : ecmdValid (e n)
      · exact .inl ⟨done, cycle_not_offered h he⟩
      · exact .inr ⟨done, _, 0, cycle_offered h he⟩
    · by_cases hk : k = 11
      · subst hk
        exact .inl ⟨_, cycle_twelfth h (hp _) (e n)⟩
      · have hlt := h.lt_twelve
        exact .inr ⟨done, b, k + 1, cycle_busy h (by omega) (e n)⟩

/-- `k` cycles after the cycle that accepts a byte, `k` bits of its codeword have arrived. -/
theorem loopRun_busy_of_offered {e : Nat → BitVec 9} {p : Nat → Nat} {n : Nat} {done : List Byte}
    (h : LoopIdle p (loopRun e p n) done) (he : ecmdValid (e n) = true) {k : Nat} (hk : k < 12) :
    LoopBusy p (loopRun e p (n + 1 + k)) done (ecmdData (e n)) k := by
  induction k with
  | zero => exact cycle_offered h he
  | succ k ih => exact cycle_busy (ih (by omega)) hk _

/-- Settles O38: between two codewords everything accepted has come out; within one, its byte is still to come; and the cycles from the
one to the other are counted. -/
theorem loopBackReturnsEveryByte : Obligations.LoopBackReturnsEveryByte := by
  intro e p hp n r
  obtain ⟨done, h⟩ | ⟨done, b, k, h⟩ := loopRun_idle_or_busy e hp n
  · obtain ⟨-, hacc, hdec, hecnt, hdcnt⟩ := id h
    have hlen : r.decoded.length = done.length := by rw [hdec, List.length_mapIdx]
    refine ⟨?_, ?_, fun _ => hdcnt, fun hbusy => absurd hecnt hbusy, fun _ he => ?_⟩
    · rw [hacc, hlen, List.take_length]
      exact hdec
    · rw [if_pos hecnt, hacc, hlen, Nat.add_zero]
    · have h11 := loopRun_busy_of_offered h he (show 11 < 12 by decide)
      have hidle : LoopIdle p (loopRun e p (n + 13)) (done ++ [_]) := cycle_twelfth h11 (hp _) (e (n + 12))
      refine ⟨?_, ?_, hidle.encCnt⟩
      · rw [hlen, h11.decoded, List.length_mapIdx]
      · rw [hlen, hidle.decoded, List.length_mapIdx, List.length_append, List.length_singleton]
  · obtain ⟨-, hacc, hdec, hlt, hcarry⟩ := h
    obtain ⟨hdcnt, hecnt⟩ := counters_of_carries hcarry hlt
    have hbusy : r.state.encCnt ≠ 0 := encCnt_ne_zero_of_carries hcarry hlt
    have hlen : r.decoded.length = done.length := by rw [hdec, List.length_mapIdx]
    refine ⟨?_, ?_, fun hidle => absurd hidle hbusy, fun _ => by rw [hdcnt]; exact hecnt, fun hidle => absurd hidle hbusy⟩
    · rw [hacc, hlen, List.take_left]
      exact hdec
    · rw [if_neg hbusy, hacc, hlen, List.length_append, List.length_singleton]

end Sys2Proof.Machine
end

section
/-! The stream functions over whole sequences (42_codec_stream.md R120 to R125, R143, R144): where each bit of an encoded or unpacked
stream stands, what each output depends on, and what errors and lost bits cost. -/

namespace Sys2Proof.Machine

/-! ### Pieces of one length, one after the other -/

section
variable {α β : Type} {f : α → List β} {m : Nat}

theorem length_flatMap_of_length (hf : ∀ a, (f a).length = m) (l : List α) : (l.flatMap f).length = m * l.length := by
  rw [List.length_flatMap, List.map_congr_left fun a _ => hf a, List.map_const', List.sum_replicate, smul_eq_mul, Nat.mul_comm]

/-- Element `i` of piece `k` stands at `m * k + i`. -/
theorem getElem?_flatMap_of_length (hf : ∀ a, (f a).length = m) {l : List α} {k : Nat} {a : α} (hk : l[k]? = some a) {i : Nat}
    (hi : i < m) : (l.flatMap f)[m * k + i]? = (f a)[i]? := by
  induction l generalizing k with
  | nil => cases hk
  | cons b bs ih =>
    rw [List.flatMap_cons]
    cases k with
    | zero =>
      obtain rfl : b = a := Option.some.inj hk
      rw [Nat.mul_zero, Nat.zero_add, List.getElem?_append_left (by rwa [hf])]
    | succ k =>
      rw [List.getElem?_append_right (by rw [hf]; exact Nat.le_add_right_of_le (Nat.le_mul_of_pos_right m k.succ_pos)), hf,
        show m * (k + 1) + i - m = m * k + i by rw [Nat.mul_succ]; omega]
      exact ih hk

end

/-! ### Encoded streams (R120) -/

/-- Settles O17: the codewords are pieces of twelve bits. -/
theorem encodedStreamLayout : Obligations.EncodedStreamLayout := by
  refine fun bytes => ⟨encodeAll_length bytes, fun k b p hk h1 h12 => ?_⟩
  have hbit := codewordBits_getElem? (encodeByte b) (show p - 1 < 12 by omega)
  rw [Nat.sub_add_cancel h1] at hbit
  rw [← hbit]
  exact getElem?_flatMap_of_length (fun b => codewordBits_length (encodeByte b)) hk (by omega)

/-! ### Decoded streams, block by block (R121, R124, R125) -/

/-- Output `k` is `DEC` of chunk `k`. -/
theorem getElem?_decodeAllX {x : List Bit} {k : Nat} (h : k < x.length / 12) :
    (decodeAllX x)[k]? = some (decodeBlock (chunk x k)) := by
  rw [decodeAllX, List.getElem?_map, List.getElem?_range h, Option.map_some]

theorem getElem?_decodeAll {x : List Bit} {k : Nat} (h : k < x.length / 12) :
    (decodeAll x)[k]? = some (decodeBlock (chunk x k)).1 := by
  rw [decodeAll, List.getElem?_map, getElem?_decodeAllX h, Option.map_some]

/-- A chunk is the block with its twelve bits. -/
theorem chunk_eq {x : List Bit} {k : Nat} {r : Codeword} (h : ∀ p, 1 ≤ p → p ≤ 12 → x[12 * k + p - 1]? = some (pos r p)) :
    chunk x k = r :=
  eq_of_pos fun p h1 h12 => by
    rw [pos_chunk x k ⟨h1, h12⟩, List.getD_eq_getElem?_getD, h p h1 h12, Option.getD_some]

/-- Settles O18: the chunk with the block's bits is the block. -/
theorem decodedStreamLayout : Obligations.DecodedStreamLayout := by
  refine fun x => ⟨decodeAllX_length x, decodeAll_length x, fun k r hk hr => ?_⟩
  rw [← chunk_eq hr]
  exact ⟨getElem?_decodeAllX hk, getElem?_decodeAll hk⟩

/-- A chunk depends on its twelve stream bits alone (R124). -/
theorem chunk_congr {x y : List Bit} {k : Nat} (h : ∀ i < 12, x[12 * k + i]? = y[12 * k + i]?) : chunk x k = chunk y k :=
  blockOf_congr fun p h1 h12 => by
    have hbit := h (p - 1) (by omega)
    rw [← Nat.add_sub_assoc h1] at hbit
    rw [List.getD_eq_getElem?_getD, List.getD_eq_getElem?_getD, hbit]

/-- Settles O21: the outputs are `DEC` of the same chunk. -/
theorem errorsStayInTheirBlock : Obligations.ErrorsStayInTheirBlock := by
  intro x y k hx hy h
  have hkx : k < x.length / 12 := by omega
  have hky : k < y.length / 12 := by omega
  rw [getElem?_decodeAllX hkx, getElem?_decodeAllX hky, getElem?_decodeAll hkx, getElem?_decodeAll hky, chunk_congr h]
  exact ⟨rfl, rfl, rfl⟩

/-! ### Errors and lost bits (R122, R123) -/

/-- Codewords with at most one inverted position each decode to their bytes and positions. -/
theorem decodeAllX_flipped : ∀ blocks : List (Byte × Nat), (∀ x ∈ blocks, x.2 ≤ 12) →
    decodeAllX (blocks.flatMap fun x => codewordBits (flipPos (encodeByte x.1) x.2)) =
      blocks.map fun x => (x.1, BitVec.ofNat 4 x.2)
  | [], _ => decodeAllX_nil
  | x :: blocks, h => by
    obtain ⟨hx, hblocks⟩ := List.forall_mem_cons.mp h
    rw [List.flatMap_cons, decodeAllX_codeword, decodeBlock_flipPos_encodeByte x.1 hx, decodeAllX_flipped blocks hblocks,
      List.map_cons]

theorem decodeAll_encodeAll_append_short (bytes : List Byte) {y : List Bit} (h : y.length < 12) :
    decodeAll (encodeAll bytes ++ y) = bytes := by
  rw [decodeAll, decodeAllX_encodeAll_append_short bytes h, List.map_map]
  exact List.map_id bytes

/-- Settles O19: each block is repaired by itself. -/
theorem streamSurvivesOneErrorPerBlock : Obligations.StreamSurvivesOneErrorPerBlock := by
  refine ⟨fun bytes => ?_, fun blocks h => ?_⟩
  · have hwhole := decodeAll_encodeAll_append_short bytes (y := []) (by decide)
    rwa [List.append_nil] at hwhole
  · intro sent
    have hpairs := decodeAllX_flipped blocks h
    refine ⟨hpairs, ?_⟩
    rw [decodeAll, hpairs, List.map_map]
    rfl

/-- A stream decodes as its whole chunks do (R123). -/
theorem decodeAllX_take_whole (x : List Bit) : decodeAllX (x.take (12 * (x.length / 12))) = decodeAllX x := by
  have hwhole : (x.take (12 * (x.length / 12))).length % 12 = 0 := by
    rw [List.length_take]
    omega
  have hrest : (x.drop (12 * (x.length / 12))).length < 12 := by
    rw [List.length_drop]
    omega
  rw [← decodeAllX_append_short hwhole hrest, List.take_append_drop]

/-- Settles O20: what is left of the last codeword is a short chunk. -/
theorem truncationLosesTheLastByte : Obligations.TruncationLosesTheLastByte := by
  refine ⟨fun x => ⟨?_, decodeAll_length x⟩, fun bytes b j h1 h12 => ?_⟩
  · rw [decodeAll, decodeAll, decodeAllX_take_whole]
  · have hfront : (encodeAll bytes).length ≤ 12 * (bytes.length + 1) - j := by
      rw [encodeAll_length]
      omega
    rw [encodeAll_append, List.take_append, List.take_of_length_le hfront]
    refine decodeAll_encodeAll_append_short bytes ?_
    rw [List.length_take, encodeAll_length]
    omega

/-! ### Packed files (R143, R144) -/

@[simp] theorem unpack_length (bytes : List Byte) : (unpack bytes).length = 8 * bytes.length :=
  length_flatMap_of_length byteBits_length bytes

@[simp] theorem pack_length (x : List Bit) : (pack x).length = (padded x).length / 8 := by
  rw [pack, List.length_map, List.length_range]

theorem byteBits_getElem? (b : Byte) {i : Nat} (h : i < 8) : (byteBits b)[i]? = some (b.getLsbD (7 - i)) := by
  rw [byteBits, List.getElem?_map, List.getElem?_range h, Option.map_some, dataBit_of_lt b h]

/-- The padding reads as the zeros beyond the stream. -/
theorem padded_getD (x : List Bit) (i : Nat) : (padded x).getD i false = x.getD i false := by
  obtain h | h := Nat.lt_or_ge i x.length
  · exact List.getD_append _ _ _ i h
  · rw [padded, List.getD_append_right _ _ _ i h, List.getD_eq_default x false h, List.getD_eq_getElem?_getD, List.getElem?_replicate]
    split <;> rfl

/-- Bit `7 - i` of byte `m` of a packed stream is stream bit `8m + i`, 0 beyond the stream (R143). -/
theorem getLsbD_of_getElem?_pack {x : List Bit} {m i : Nat} {b : Byte} (h : (pack x)[m]? = some b) (hi : i < 8) :
    b.getLsbD (7 - i) = x.getD (8 * m + i) false := by
  have hm : m < (padded x).length / 8 := by
    rw [← pack_length]
    exact (List.getElem?_eq_some_iff.mp h).1
  rw [pack, List.getElem?_map, List.getElem?_range hm, Option.map_some, Option.some_inj] at h
  rw [← dataBit_of_lt b hi, ← h, dataBit_byteOf _ hi, padded_getD]

/-- Settles O22: bytes are pieces of eight bits, and the padding is that of `unpack_pack`. -/
theorem unpackUndoesPack : Obligations.UnpackUndoesPack := by
  refine ⟨fun bytes => ⟨unpack_length bytes, fun j i b hb hi => ?_⟩, fun x => ⟨?_, fun m i b => getLsbD_of_getElem?_pack,
    padBits x.length, padBits_lt _, add_padBits_mod _, unpack_pack x⟩⟩
  · rw [← byteBits_getElem? b hi]
    exact getElem?_flatMap_of_length byteBits_length hb hi
  · have hlt := padBits_lt x.length
    have hmod := add_padBits_mod x.length
    rw [pack_length, padded_length]
    omega

end Sys2Proof.Machine
end

section
/-! No operation raises an exception, and data never decides what happens (60_exceptions.md R160, R168, R169): what a clock cycle does to
the counters, and whether it puts anything out, as a function of the counters and the control bits. -/

namespace Sys2Proof.Machine

/-! ### Nothing is refused (R160) -/

/-- After a RESET every operation answers a next state, and the RESET stays performed (R160). -/
theorem exec_of_resetDone (i : Instr) {s : State} (hdone : s.resetDone = true) :
    ∃ t, exec i s = .next t ∧ t.resetDone = true := by
  cases hformat : i.format with
  | ecmd =>
    obtain ⟨e, hexec⟩ := exec_ecmd hformat
    exact ⟨encAfter e s, by rw [hexec, whenReset_of_done hdone], by rwa [encAfter_resetDone]⟩
  | dcmd =>
    obtain ⟨w, hexec⟩ := exec_dcmd hformat
    exact ⟨decAfter w s, by rw [hexec, whenReset_of_done hdone], by rwa [decAfter_resetDone]⟩
  | enc8 =>
    cases i with
    | enc d => exact ⟨_, exec_enc d s, hdone⟩
    | _ => cases hformat
  | dec12 =>
    cases i with
    | dec r => exact ⟨_, exec_dec r s, hdone⟩
    | _ => cases hformat
  | rst =>
    cases i with
    | reset => exact ⟨s.resetRegisters, rfl, resetRegisters_resetDone s⟩
    | _ => cases hformat

/-- Settles O39: every operation by its channel's edge, every step by the cases of a step. -/
theorem nothingIsEverRefusedAfterReset : Obligations.NothingIsEverRefusedAfterReset :=
  ⟨fun i _ hdone => exec_of_resetDone i hdone, fun _ hdone => step_of_resetDone hdone⟩

/-! ### Control without data (R168) -/

/-- The encode channel's counter after an edge is a matter of the counter and the valid bit (R130 to R132). -/
theorem encAfter_encCnt (e : BitVec 9) (s : State) :
    (encAfter e s).encCnt = if s.encCnt = 0 then (if ecmdValid e then 12 else 0) else countDown s.encCnt := by
  obtain ⟨hcnt, he, h⟩ | ⟨hcnt, he, h⟩ | ⟨hcnt, h⟩ := encAfter_cases e s
  · rw [h, if_pos hcnt, if_pos he]
    rfl
  · rw [h, if_pos hcnt, he]
    exact hcnt
  · rw [h, if_neg hcnt]
    rfl

/-- The decode channel's counter after an edge is a matter of the counter and the two control bits; counting up from 11 gives 0
(R134 to R137). -/
theorem decAfter_decCnt (w : BitVec 3) (s : State) :
    (decAfter w s).decCnt = if dcmdLast w then 0 else if dcmdValid w then countUp s.decCnt else s.decCnt := by
  rw [decAfter_eq]
  split
  · rfl
  · obtain ⟨hw, h⟩ | ⟨hw, hcnt, h⟩ | ⟨hw, -, h⟩ := offerBit_cases w s
    · rw [h, hw]
      rfl
    · rw [h, if_pos hw, hcnt]
      rfl
    · rw [h, if_pos hw]
      rfl

theorem encOutTransfer_isSome (s : State) (rst : Bool) : (encOutTransfer s rst).isSome = encOutValidWire s rst := by
  unfold encOutTransfer
  cases encOutValidWire s rst <;> rfl

theorem decOutTransfer_isSome (s : State) (rst : Bool) (w : BitVec 3) :
    (decOutTransfer s rst w).isSome = decOutValidWire s rst w := by
  unfold decOutTransfer
  cases decOutValidWire s rst w <;> rfl

/-- Both counters after a clock cycle, and whether each channel puts something out, from the counters and the control bits (R168). -/
theorem step_control {s t : State} {rst : Bool} {e : BitVec 9} {w : BitVec 3} (hin : s.nextInput = .clock rst e w)
    (hs : step s = .next t) :
    t.encCnt = (if rst then 0 else if s.encCnt = 0 then (if ecmdValid e then 12 else 0) else countDown s.encCnt) ∧
    t.decCnt = (if rst then 0 else if dcmdLast w then 0 else if dcmdValid w then countUp s.decCnt else s.decCnt) ∧
    t.encOut.isSome = (!rst && s.encCnt != 0) ∧ t.decOut.isSome = (!rst && dcmdValid w && s.decCnt == 11) := by
  cases rst with
  | true =>
    cases (step_reset hin).symm.trans hs
    exact ⟨rfl, rfl, rfl, rfl⟩
  | false =>
    cases hdone : s.resetDone
    · cases (step_clock_refused hdone hin).symm.trans hs
    · cases (step_clock hdone hin).symm.trans hs
      obtain ⟨-, fcnt, -, -, fout, -⟩ := decAfter_frame w (encAfter e s.beginStep)
      obtain ⟨-, fdcnt, -, fdout, -⟩ := decAfter_encAfter_dec w e s.beginStep
      obtain ⟨-, -, hencOut⟩ := encAfter_ports e s.beginStep
      obtain ⟨-, hdecOut, -⟩ := decAfter_ports w s.beginStep
      refine ⟨fcnt.trans (encAfter_encCnt e _), fdcnt.trans (decAfter_decCnt w _), ?_, ?_⟩
      · rw [fout, hencOut, encOutTransfer_isSome]
        rfl
      · rw [fdout, hdecOut, decOutTransfer_isSome]
        rfl

/-- Settles O40: counters and control bits are all that `step_control` reads. -/
theorem controlNeverDependsOnData : Obligations.ControlNeverDependsOnData := by
  intro s s' rst e e' w w' rest rest' t t' hin hin' hoffer hvalid hlast henc hdec hs hs'
  obtain ⟨hecnt, hdcnt, heout, hdout⟩ := step_control (nextInput_of_cons hin) hs
  obtain ⟨hecnt', hdcnt', heout', hdout'⟩ := step_control (nextInput_of_cons hin') hs'
  have hoffer : ecmdValid e = ecmdValid e' := hoffer
  have hvalid : dcmdValid w = dcmdValid w' := hvalid
  have hlast : dcmdLast w = dcmdLast w' := hlast
  rw [hecnt, hecnt', hdcnt, hdcnt', heout, heout', hdout, hdout', hoffer, hvalid, hlast, henc, hdec]
  exact ⟨rfl, rfl, rfl, rfl⟩

end Sys2Proof.Machine
end

section
/-! RESET, what precedes it and what follows it (70_reset_and_hazards.md): the state a RESET leaves (R180), the refusal of clocked
operations before the first one (R182, R183), and the end of every codeword after it (R193). -/

namespace Sys2Proof.Machine

/-! ### RESET and the time before it (R180, R182) -/

/-- `RESET` completes from every state, one that has never been reset too. -/
theorem exec_reset (s : State) : exec .reset s = .next s.resetRegisters := rfl

/-- Settles O42: a cycle with `rst = 1` is a RESET after `beginStep`, which clears the record and consumes the entry. -/
theorem resetClearsBothChannels : Obligations.ResetClearsBothChannels := by
  refine ⟨fun _ => rfl, exec_reset, fun s e w rest hin => ?_⟩
  rw [step_reset (nextInput_of_cons hin), State.beginStep, hin]
  rfl

/-- Before the first RESET an operation of either channel is refused, because it acts under the guard `whenReset`. -/
theorem exec_refused {i : Instr} {s : State} (hdone : s.resetDone = false) (hi : i.format = .ecmd ∨ i.format = .dcmd) :
    exec i s = .refused .beforeFirstReset := by
  obtain hi | hi := hi
  · obtain ⟨e, hexec⟩ := exec_ecmd hi
    rw [hexec, whenReset_of_not_done hdone]
  · obtain ⟨w, hexec⟩ := exec_dcmd hi
    rw [hexec, whenReset_of_not_done hdone]

/-- Settles O43: the channels' operations by `exec_refused`; the others act without the guard. -/
theorem nothingClockedRunsBeforeTheFirstReset : Obligations.NothingClockedRunsBeforeTheFirstReset := fun s hdone =>
  ⟨fun _ hi => exec_refused hdone hi, ⟨_, exec_reset s, resetRegisters_resetDone s⟩,
    fun d => ⟨_, exec_enc d s⟩, fun c => ⟨_, exec_dec c s⟩⟩

/-! ### The encode channel becomes idle (R193) -/

/-- A step that answers is the first of a longer run. -/
theorem run_succ {n : Nat} {s t : State} (h : step s = .next t) :
    Host.Core.run Sys2Proof.core (n + 1) s = Host.Core.run Sys2Proof.core n t := by
  have hcore : Sys2Proof.core.step s = .next t := h
  simp only [Host.Core.run, hcore]

/-- After a RESET a run of `n` steps answers the last state that `observe` lists, and the RESET stays performed. -/
theorem run_of_resetDone {s : State} (hdone : s.resetDone = true) (n : Nat) :
    Host.Core.run Sys2Proof.core n s = .next ((observe n s).getLastD s) ∧ ((observe n s).getLastD s).resetDone = true := by
  induction n generalizing s with
  | zero => exact ⟨rfl, hdone⟩
  | succ n ih =>
    obtain ⟨t, hs, htdone⟩ := step_of_resetDone hdone
    rw [run_succ hs, observe_succ hs, List.getLastD_cons]
    exact ih htdone

/-- Settles O47: the channel is idle after as many cycles as it owes bits, by `observe_shifts`. -/
theorem encodeChannelAlwaysBecomesIdle : Obligations.EncodeChannelAlwaysBecomesIdle := by
  intro s hdone hrun
  obtain ⟨hnext, htdone⟩ := run_of_resetDone hdone s.encCnt.val
  obtain ⟨-, -, -, hidle⟩ := observe_shifts hdone hrun rfl
  exact ⟨s.encCnt.val, Nat.le_of_lt_succ s.encCnt.isLt, _, hnext, hidle, htdone⟩

end Sys2Proof.Machine
end
